-- ==== Sys2Proof/Word.lean ====
section
/-! DEFINITION. The two word types of the PITE: 32-bit registers and command words (R6, R20, R64),
8-bit unsigned samples (R6). -/

namespace Sys2Proof

/-- A register or command word (00_scope.md R6: register width 32 bits). -/
abbrev Word := BitVec 32

/-- One sample, or one byte of sample RAM (R6: 8 bits, unsigned, values 0..255). -/
abbrev Byte := BitVec 8

end Sys2Proof
end

