-- ==== Sys2Proof/Syntax.lean ====
section
/-! DEFINITION. The seven commands (30_encoding.md R67), one constructor per row of spec/opcode_table.json, with the
fields their words carry (R65). -/

namespace Sys2Proof

/-- The fields of a saturating-arithmetic command word (30_encoding.md R65). -/
structure SatMods where
  /-- PERCH, bit 4: channel `k` uses `OPND<k>`; otherwise every channel uses `OPND0`. -/
  perch : Bool
  /-- CHEN, bit 5: process only channel `chsel`. -/
  chen : Bool
  /-- CHSEL, bits 7:6: the selected channel. -/
  chsel : BitVec 2
  /-- INPLACE, bit 8: write the result into the source buffer. -/
  inplace : Bool
deriving DecidableEq, Repr

/-- A command of the PITE (30_encoding.md R67). -/
inductive Instr where
  /-- Saturating add (40_saturating_arithmetic.md R81). -/
  | sadd (m : SatMods)
  /-- Saturating subtract (R82). -/
  | ssub (m : SatMods)
  /-- Saturating multiply (R83). -/
  | smul (m : SatMods)
  /-- Saturating divide (R84). -/
  | sdiv (m : SatMods)
  /-- Power-law correction (41_gamma.md R91). -/
  | gamma
  /-- Contrast stretch; `expl` is EXPL, bit 9 (42_contrast_stretch.md R99). -/
  | cstr (expl : Bool)
  /-- Bit-plane extraction (43_bit_plane.md R103). -/
  | bplane
deriving DecidableEq, Repr

end Sys2Proof
end

