-- ==== Sys2Proof/WellFormed.lean ====
section
/-! DEFINITION. Which terms of the syntax are commands of the PITE: those whose word is legal (30_encoding.md R68).
The fields' widths are in their types, so only the two relations between fields are left to check. -/

namespace Sys2Proof

/-- R68: `CHEN = 1 or CHSEL = 0`. -/
def SatMods.selectorLegal (m : SatMods) : Bool := m.chen || m.chsel == 0#2

/-- R68: `INPLACE = 0 or CHEN = 1`. -/
def SatMods.inplaceLegal (m : SatMods) : Bool := !m.inplace || m.chen

/-- The field relations R68 asks of a saturating-arithmetic word. -/
def SatMods.legal (m : SatMods) : Bool := m.selectorLegal && m.inplaceLegal

/-- The command's word is legal (R68). -/
def Instr.wellFormed : Instr → Bool
  | .sadd m => m.legal
  | .ssub m => m.legal
  | .smul m => m.legal
  | .sdiv m => m.legal
  | .gamma => true
  | .cstr _ => true
  | .bplane => true

end Sys2Proof
end

