-- ==== Sys2Proof/Decode.lean ====
section
/-! DEFINITION. Command words to commands and back (30_encoding.md R64 to R68). `decode` is total: a word is either a
command or refused by the name of the clause of R68 it breaks. -/

namespace Sys2Proof

/-- The clause of R68 that an illegal command word breaks. Each makes the engine raise ILLEGAL_CMD. -/
inductive DecodeError where
  /-- `w[31:10] ≠ 0`. -/
  | reservedBits
  /-- `OP` is 0x0 or 0x8..0xF. -/
  | reservedOpcode
  /-- EXPL set on SADD, SSUB, SMUL or SDIV. -/
  | explOnSat
  /-- CHSEL non-zero without CHEN. -/
  | selectorWithoutChen
  /-- INPLACE without CHEN. -/
  | inplaceWithoutChen
  /-- A flag set on a command that does not use it (GAMMA, CSTR, BPLANE). -/
  | unusedFlag
deriving DecidableEq, Repr

/-- OP, bits 3:0 (R65). -/
def opField (w : Word) : BitVec 4 := w.extractLsb' 0 4
/-- PERCH, bit 4 (R65). -/
def perchField (w : Word) : Bool := w.getLsbD 4
/-- CHEN, bit 5 (R65). -/
def chenField (w : Word) : Bool := w.getLsbD 5
/-- CHSEL, bits 7:6 (R65). -/
def chselField (w : Word) : BitVec 2 := w.extractLsb' 6 2
/-- INPLACE, bit 8 (R65). -/
def inplaceField (w : Word) : Bool := w.getLsbD 8
/-- EXPL, bit 9 (R65). -/
def explField (w : Word) : Bool := w.getLsbD 9
/-- The reserved bits 31:10 (R65). -/
def reservedField (w : Word) : BitVec 22 := w.extractLsb' 10 22

/-- `legal(w)` of R68, clause by clause. -/
def legalWord (w : Word) : Bool :=
  reservedField w == 0#22
  && (1 ≤ (opField w).toNat && (opField w).toNat ≤ 7)
  && (!(1 ≤ (opField w).toNat && (opField w).toNat ≤ 4)
      || (!explField w && (chenField w || chselField w == 0#2) && (!inplaceField w || chenField w)))
  && (!(opField w == 6#4) || w.extractLsb' 4 5 == 0#5)
  && (!(opField w == 5#4 || opField w == 7#4) || w.extractLsb' 4 6 == 0#6)

/-- The fields of a saturating-arithmetic word. -/
def satFields (w : Word) : SatMods :=
  { perch := perchField w, chen := chenField w, chsel := chselField w, inplace := inplaceField w }

/-- A saturating-arithmetic word, once OP and the reserved bits are checked (R68). -/
def decodeSat (mk : SatMods → Instr) (w : Word) : Except DecodeError Instr :=
  if explField w then .error .explOnSat
  else if !(satFields w).selectorLegal then .error .selectorWithoutChen
  else if !(satFields w).inplaceLegal then .error .inplaceWithoutChen
  else .ok (mk (satFields w))

/-- The command a word stands for (R67), or the clause of R68 it breaks. -/
def decode (w : Word) : Except DecodeError Instr :=
  if reservedField w ≠ 0#22 then .error .reservedBits
  else match opField w with
    | 1#4 => decodeSat .sadd w
    | 2#4 => decodeSat .ssub w
    | 3#4 => decodeSat .smul w
    | 4#4 => decodeSat .sdiv w
    | 5#4 => if w.extractLsb' 4 6 = 0#6 then .ok .gamma else .error .unusedFlag
    | 6#4 => if w.extractLsb' 4 5 = 0#5 then .ok (.cstr (explField w)) else .error .unusedFlag
    | 7#4 => if w.extractLsb' 4 6 = 0#6 then .ok .bplane else .error .unusedFlag
    | _ => .error .reservedOpcode

/-- The bit diagram of R65: `reserved | EXPL | INPLACE | CHSEL | CHEN | PERCH | OP`. -/
def packWord (expl inplace : Bool) (chsel : BitVec 2) (chen perch : Bool) (op : BitVec 4) : Word :=
  0#22 ++ BitVec.ofBool expl ++ BitVec.ofBool inplace ++ chsel ++ BitVec.ofBool chen ++ BitVec.ofBool perch ++ op

/-- The word of a saturating-arithmetic command with opcode `op`. -/
def encodeSat (op : BitVec 4) (m : SatMods) : Word := packWord false m.inplace m.chsel m.chen m.perch op

/-- The command's word (R65, R67). -/
def encode : Instr → Word
  | .sadd m => encodeSat 1#4 m
  | .ssub m => encodeSat 2#4 m
  | .smul m => encodeSat 3#4 m
  | .sdiv m => encodeSat 4#4 m
  | .gamma => packWord false false 0#2 false false 5#4
  | .cstr expl => packWord expl false 0#2 false false 6#4
  | .bplane => packWord false false 0#2 false false 7#4

/-- The command word made of the low `nbits` bits of `w`, every higher bit 0 (a command is one 32-bit word, R64).
`none` if bits above the command word would be lost. -/
def tableWord (nbits w : Nat) : Option Word :=
  if w % 2 ^ nbits < 2 ^ 32 then some (BitVec.ofNat 32 (w % 2 ^ nbits)) else none

/-- The command the decoder reads from an opcode-table word of `nbits` bits. -/
def decodeTableWord (nbits w : Nat) : Option Instr :=
  match tableWord nbits w with
  | some word => (decode word).toOption
  | none => none

end Sys2Proof
end

