-- ==== Sys2Proof/Config.lean ====
section
/-! DEFINITION. What the spec leaves to the implementation, and the free values. Each is a constant without a
body: no proof can rest on its value. -/

namespace Sys2Proof.Config

/-- The OPEN parameter SRAM_BYTES (00_scope.md R6), as the index of the last 32-bit word of sample RAM:
`SRAM_BYTES = 4 * (sramTopWord + 1)`. The values of this type are exactly the sizes R6 allows (at least 4 bytes,
at most 2^24, a multiple of 4). Log 3. -/
opaque sramTopWord : Fin 4194304

/-- The OPEN parameter PITE_BASE (20_memory.md R45): the host address of bus offset 0. Log 4. -/
opaque piteBase : Nat

/-- The free values: `freeByte d a` is the byte at sample-RAM offset `a` in the free draw number `d`. Used for RAM
after power-on (70_reset_and_hazards.md R127), for the data of a RAM read while busy (20_memory.md R49) and for the
output range of an aborted command (70_reset_and_hazards.md R128). Every occasion takes a draw number of its own
(`State.draws`). Log 5. -/
opaque freeByte : Nat → Nat → Byte

end Sys2Proof.Config
end

