-- ==== Sys2Proof/Machine/State.lean ====
section
/-! DEFINITION. The state of the PITE (10_state.md R20 to R42), the host's side of it (what will happen next and what
was answered), the reasons a step can stop, and the state after power-on reset. -/

namespace Sys2Proof.Machine

/-- The number of sizes sample RAM can have: words of 4 bytes, at most 2^24 bytes (00_scope.md R6). -/
abbrev SramTopWord := Fin 4194304

/-- Sample RAM (10_state.md R40). `cells` lists the bytes written since power-on, by strictly rising offset; every
other byte still holds what it came up with, byte `a` of the free draw `draw` (70_reset_and_hazards.md R127). -/
structure Memory where
  /-- The bytes written since power-on, addresses strictly rising. -/
  cells : List Host.Cell
  /-- The free draw the unwritten bytes hold (the model's own field, log 5). -/
  draw : Nat
  /-- The last 32-bit word: `SRAM_BYTES = 4 * (topWord + 1)` (log 3). -/
  topWord : SramTopWord
deriving DecidableEq, Repr

/-- The size of a host access (20_memory.md R46). -/
inductive AccessSize where
  | one | two | four
deriving DecidableEq, Repr

/-- The kind of a host access, a write with its 32-bit data (R46). -/
inductive Access where
  | read
  | write (wdata : Word)
deriving DecidableEq, Repr

/-- A host transaction `(offset, size, kind, wdata)` (R46), at a 25-bit byte offset of the bus window (R43). -/
structure BusTxn where
  offset : BitVec 25
  size : AccessSize
  access : Access
deriving DecidableEq, Repr

/-- The answer to a transaction (R46): OK with read data, OK to a write, or ERROR. -/
inductive BusResponse where
  | okRead (rdata : Word)
  | okWrite
  | error
deriving DecidableEq, Repr

/-- What happens next, as the host, the engine or the platform moves (10_state.md R16; log 1). -/
inductive Event where
  /-- The host issues a transaction. -/
  | bus (t : BusTxn)
  /-- The engine takes its turn: it executes the command in flight, if there is one (30_encoding.md R71). -/
  | engine
  /-- `rst_n` goes low and high again (70_reset_and_hazards.md R125; log 9). -/
  | powerOn
deriving DecidableEq, Repr

/-- Why a command ends without its effect (60_exceptions.md R107). -/
inductive ErrCode where
  | domain | shape | invalidInput | illegalCmd
deriving DecidableEq, Repr

/-- The state of the PITE. -/
structure State where
  /-- CTRL.IE (R24). -/
  ie : Bool
  /-- STATUS.BUSY, the engine's phase (R25, R41). -/
  busy : Bool
  /-- STATUS.DONE (R25). -/
  done : Bool
  /-- STATUS.DEGEN (R25). -/
  degen : Bool
  /-- STATUS.WERR (R25). -/
  werr : Bool
  /-- STATUS.ERR (R25). -/
  err : BitVec 4
  /-- CMD, the last accepted command word (R26). -/
  cmd : Word
  /-- SRC (R27). -/
  src : Word
  /-- DST (R28). -/
  dst : Word
  /-- DIMS.WIDTH (R29). -/
  width : BitVec 16
  /-- DIMS.HEIGHT (R29). -/
  height : BitVec 16
  /-- FMT.CHANNELS (R30). -/
  channels : BitVec 4
  /-- OPND0 (R31). -/
  opnd0 : Word
  /-- OPND1 (R31). -/
  opnd1 : Word
  /-- OPND2 (R31). -/
  opnd2 : Word
  /-- GAMMA (R32). -/
  gamma : Word
  /-- GAINC (R33). -/
  gainc : Word
  /-- CSTOUT.OUTMIN (R34). -/
  outMin : Byte
  /-- CSTOUT.OUTMAX (R34). -/
  outMax : Byte
  /-- CSTSRC.SRCMIN (R35). -/
  srcMin : Byte
  /-- CSTSRC.SRCMAX (R35). -/
  srcMax : Byte
  /-- CSTOBS.RMIN (R36). -/
  obsMin : Byte
  /-- CSTOBS.RMAX (R36). -/
  obsMax : Byte
  /-- CSTOBS.VALID (R36). -/
  obsValid : Bool
  /-- Sample RAM (R40). -/
  ram : Memory
  /-- The model's own: how many free draws have been taken (log 5). -/
  draws : Nat
  /-- The model's own: what happens next, in order (log 1). -/
  agenda : List Event
  /-- The model's own: the answers the host has received, newest first (log 14). -/
  responses : List BusResponse
deriving DecidableEq, Repr

/-- Reasons for a machine fault. -/
inductive Fault where
  /-- Raised by an engine access outside sample RAM, where `MemRead` and `MemWrite` are not defined (00_scope.md R12).
  Validation comes before every access (60_exceptions.md R109), so no command raises it. Safe. Log 13. -/
  | sampleRamRange
deriving DecidableEq, Repr

/-- Reasons for a refusal. -/
inductive Refusal where
  /-- Raised by `exec` for an instruction without a meaning; every instruction of this model has one. Safe. -/
  | notModelled (mnemonic : String)
deriving DecidableEq, Repr

/-- The machine right after power-on reset: the reset column of 10_state.md R20, the engine IDLE (R126), no byte of
sample RAM written (R127), and nothing on the agenda. -/
def State.reset : State where
  ie := false
  busy := false
  done := false
  degen := false
  werr := false
  err := 0#4
  cmd := 0#32
  src := 0#32
  dst := 0#32
  width := 0#16
  height := 0#16
  channels := 0#4
  opnd0 := 0#32
  opnd1 := 0#32
  opnd2 := 0#32
  gamma := 0#32
  gainc := 0x00010000#32
  outMin := 0#8
  outMax := 0#8
  srcMin := 0#8
  srcMax := 0#8
  obsMin := 0#8
  obsMax := 0#8
  obsValid := false
  ram := { cells := [], draw := 0, topWord := Config.sramTopWord }
  draws := 1
  agenda := []
  responses := []

end Sys2Proof.Machine
end

