-- ==== Sys2Proof/Machine/Memory.lean ====
section
/-! DEFINITION. The operations of sample RAM: one byte read and written, the canonical form, the engine's bounded
accesses (00_scope.md R12), the host's little-endian accesses (20_memory.md R48, R52), and the engine's loop over
samples. -/

namespace Sys2Proof.Machine

/-- SRAM_BYTES (00_scope.md R6). -/
def Memory.bytes (m : Memory) : Nat := 4 * (m.topWord.val + 1)

/-- The byte listed at offset `a`, if it has been written since power-on. -/
def lookupCell : List Host.Cell → Nat → Option Byte
  | [], _ => none
  | (k, v) :: rest, a => if k = a then some v else lookupCell rest a

/-- The list with `v` at offset `a`, addresses still rising. -/
def storeCell : List Host.Cell → Nat → Byte → List Host.Cell
  | [], a, v => [(a, v)]
  | (k, w) :: rest, a, v =>
    if a < k then (a, v) :: (k, w) :: rest
    else if a = k then (a, v) :: rest
    else (k, w) :: storeCell rest a v

/-- The byte at offset `a`: the last one written, or else the one it came up with at power-on
(70_reset_and_hazards.md R127; log 6). -/
def Memory.get (m : Memory) (a : Nat) : Byte :=
  (lookupCell m.cells a).getD (Config.freeByte m.draw a)

/-- The memory with byte `v` at offset `a`. -/
def Memory.set (m : Memory) (a : Nat) (v : Byte) : Memory :=
  { m with cells := storeCell m.cells a v }

/-- The canonical form: addresses strictly rising, and all of them inside sample RAM. -/
abbrev Memory.wf (m : Memory) : Prop :=
  m.cells.Pairwise (fun c d => c.1 < d.1) ∧ ∀ c ∈ m.cells, c.1 < m.bytes

/-- `MemRead(a, 1)` of the engine, defined only inside sample RAM (R12). -/
def Memory.read (m : Memory) (a : Nat) : Option Byte :=
  if a < m.bytes then some (m.get a) else none

/-- `MemWrite(a, 1, v)` of the engine, defined only inside sample RAM (R12). -/
def Memory.write (m : Memory) (a : Nat) (v : Byte) : Option Memory :=
  if a < m.bytes then some (m.set a v) else none

/-- How many bytes an access of this size has (20_memory.md R46). -/
def sizeBytes : AccessSize → Nat
  | .one => 1
  | .two => 2
  | .four => 4

/-- The little-endian value of `f 0, f 1, …`, zero-extended to 32 bits (R48, R52). -/
def joinBytes (size : AccessSize) (f : Nat → Byte) : Word :=
  match size with
  | .one => 0#24 ++ f 0
  | .two => 0#16 ++ f 1 ++ f 0
  | .four => f 3 ++ f 2 ++ f 1 ++ f 0

/-- Byte `i` of a 32-bit value, byte 0 the least significant (R48). -/
def byteOf (w : Word) (i : Nat) : Byte := w.extractLsb' (8 * i) 8

/-- `zext_32(MemRead(a, size))` (R48). -/
def Memory.readLE (m : Memory) (a : Nat) (size : AccessSize) : Word :=
  joinBytes size (fun i => m.get (a + i))

/-- `MemWrite(a, size, w)` (R12, R48): byte `i` of `w` goes to offset `a + i`. -/
def Memory.writeLE (m : Memory) (a : Nat) (size : AccessSize) (w : Word) : Memory :=
  match size with
  | .one => m.set a (byteOf w 0)
  | .two => (m.set a (byteOf w 0)).set (a + 1) (byteOf w 1)
  | .four => (((m.set a (byteOf w 0)).set (a + 1) (byteOf w 1)).set (a + 2) (byteOf w 2)).set (a + 3) (byteOf w 3)

/-- `forall i in [0, n)` (00_scope.md R14), taken in rising order, which is not observable (20_memory.md R58;
log 11). `none` as soon as an access is outside sample RAM. -/
def forRange (n : Nat) (body : Nat → Memory → Option Memory) (m : Memory) : Option Memory :=
  match n with
  | 0 => some m
  | k + 1 => (forRange k body m).bind (body k)

/-- Sample `src + i` to sample `dst + i`, mapped by `g i`, for every `i < n`. -/
def mapSamples (src dst n : Nat) (g : Nat → Byte → Byte) (m : Memory) : Option Memory :=
  forRange n (fun i m => (m.read (src + i)).bind fun v => m.write (dst + i) (g i v)) m

/-- The samples `src + i` with `p i`, each replaced by `g` of itself (the in-place body of
40_saturating_arithmetic.md R78). -/
def updateSamples (src n : Nat) (p : Nat → Bool) (g : Byte → Byte) (m : Memory) : Option Memory :=
  forRange n (fun i m => if p i then (m.read (src + i)).bind fun v => m.write (src + i) (g v) else some m) m

/-- Every byte of `[dst, dst + n)` becomes `v` (the fill of 42_contrast_stretch.md R97). -/
def fillSamples (dst n : Nat) (v : Byte) (m : Memory) : Option Memory :=
  forRange n (fun i m => m.write (dst + i) v) m

/-- The least and the greatest sample of `[src, src + n)` (42_contrast_stretch.md R95 (a)); `(255, 0)` when there is
none, which no validated command has (log 16). -/
def sampleBounds (src : Nat) (m : Memory) : Nat → Option (Nat × Nat)
  | 0 => some (255, 0)
  | k + 1 =>
    (sampleBounds src m k).bind fun b =>
      (m.read (src + k)).bind fun v => some (min b.1 v.toNat, max b.2 v.toNat)

/-- The memory with the free bytes of draw `d` at the offsets listed. -/
def scatterFree (d : Nat) (addrs : List Nat) (m : Memory) : Memory :=
  addrs.foldl (fun m a => m.set a (Config.freeByte d a)) m

/-- The memory after power-on: every byte holds its value of draw `d` (70_reset_and_hazards.md R127). -/
def Memory.powerUp (m : Memory) (d : Nat) : Memory := { m with cells := [], draw := d }

end Sys2Proof.Machine
end

