-- ==== Sys2Proof/Machine/Operands.lean ====
section
/-! DEFINITION. Operand assembly (30_encoding.md R66): every operand of a command comes from a fixed parameter
register, with no sign extension. -/

namespace Sys2Proof.Machine

/-- `W` (R66). -/
def State.W (s : State) : Nat := s.width.toNat
/-- `H` (R66). -/
def State.H (s : State) : Nat := s.height.toNat
/-- `C` (R66). -/
def State.C (s : State) : Nat := s.channels.toNat
/-- `S`, the source buffer's offset (R66). -/
def State.S (s : State) : Nat := s.src.toNat
/-- `D`, the destination buffer's offset (R66). -/
def State.D (s : State) : Nat := s.dst.toNat
/-- `N = H*W*C`, the bytes of a buffer (00_scope.md R13). -/
def State.N (s : State) : Nat := s.H * s.W * s.C

/-- The flat index of the sample at row `r`, column `c`, channel `k` (R13). -/
def sampleIndex (w channels r c k : Nat) : Nat := (r * w + c) * channels + k

/-- `R.OPND[j]` (R66). -/
def State.opnd (s : State) : Nat → Word
  | 0 => s.opnd0
  | 1 => s.opnd1
  | _ => s.opnd2

/-- `j(k)`, the operand register of channel `k` (40_saturating_arithmetic.md R76). -/
def operandIndex (m : SatMods) (k : Nat) : Nat := if m.perch then k else 0

/-- The raw operand of channel `k` (R76). -/
def operandOf (m : SatMods) (s : State) (k : Nat) : Word := s.opnd (operandIndex m k)

/-- Channel `k` is selected (40_saturating_arithmetic.md R77). -/
def selected (m : SatMods) (k : Nat) : Bool := !m.chen || k == m.chsel.toNat

/-- `used(w, C)`, the operand registers a command uses (40_saturating_arithmetic.md R84, 60_exceptions.md R109). -/
def usedOperands (m : SatMods) (channels : Nat) : List Nat :=
  if m.perch then (if m.chen then [m.chsel.toNat] else List.range channels) else [0]

/-- The byte of sample RAM at offset `a`. -/
def State.byte (s : State) (a : Nat) : Byte := s.ram.get a

/-- SRAM_BYTES of this machine. -/
def State.sramBytes (s : State) : Nat := s.ram.bytes

end Sys2Proof.Machine
end

