-- ==== Sys2Proof/Machine/Flags.lean ====
section
/-! DEFINITION. The status flags (10_state.md R25, R38): error codes, acceptance, completion, write-1-to-clear, the
interrupt output. -/

namespace Sys2Proof.Machine

/-- The codes of STATUS.ERR (60_exceptions.md R107), 0 for a command that ends without error. -/
def errBits : Option ErrCode → BitVec 4
  | none => 0#4
  | some .domain => 1#4
  | some .shape => 2#4
  | some .invalidInput => 3#4
  | some .illegalCmd => 4#4

/-- Acceptance of command word `w` (30_encoding.md R70). -/
def accept (w : Word) (s : State) : State :=
  { s with cmd := w, done := false, degen := false, err := 0#4, busy := true }

/-- `Complete()` after `Execute` returned normally (`none`) or raised `e` (30_encoding.md R71). -/
def complete (e : Option ErrCode) (s : State) : State :=
  { s with err := errBits e, busy := false, done := true }

/-- A write to STATUS: bit 1 clears DONE, bit 3 clears WERR, every other bit is ignored (10_state.md R25). -/
def clearStatus (w : Word) (s : State) : State :=
  { s with done := s.done && !w.getLsbD 1, werr := s.werr && !w.getLsbD 3 }

/-- A write dropped because the engine is busy (10_state.md R21 (b), 20_memory.md R49). -/
def dropWrite (s : State) : State := { s with werr := true }

/-- The interrupt output (60_exceptions.md R114). -/
def irq (s : State) : Bool := s.done && s.ie

/-- The STATUS word (10_state.md R25). -/
def statusWord (s : State) : Word :=
  0#20 ++ s.err ++ 0#4 ++ BitVec.ofBool s.werr ++ BitVec.ofBool s.degen ++ BitVec.ofBool s.done ++ BitVec.ofBool s.busy

end Sys2Proof.Machine
end

