-- ==== Sys2Proof/Machine/Ops.lean ====
section
/-! DEFINITION. What every command shares: validation (60_exceptions.md R109, R110), raising an error (R106, R111) and
`Execute` with `Complete` (30_encoding.md R71); the output range of a command; the two resets
(70_reset_and_hazards.md R125 to R128). -/

namespace Sys2Proof.Machine

/-- R109 step 1: dimensions and channel count. -/
def checkFormat (s : State) : Option ErrCode :=
  if s.W = 0 ∨ s.H = 0 ∨ (s.C ≠ 1 ∧ s.C ≠ 3) then some .invalidInput else none

/-- R109 step 2 for a saturating-arithmetic command: the selected channel exists. -/
def checkSelector (m : SatMods) (s : State) : Option ErrCode :=
  if m.chen = true ∧ s.C ≤ m.chsel.toNat then some .shape else none

/-- R109 step 2. -/
def checkShape (i : Instr) (s : State) : Option ErrCode :=
  match i with
  | .sadd m => checkSelector m s
  | .ssub m => checkSelector m s
  | .smul m => checkSelector m s
  | .sdiv m => checkSelector m s
  | .gamma => none
  | .cstr _ => none
  | .bplane => if s.C ≠ 1 then some .shape else none

/-- The command writes into its source buffer (R109: `w.OP in SAT and w.INPLACE = 1`). -/
def isInplace : Instr → Bool
  | .sadd m => m.inplace
  | .ssub m => m.inplace
  | .smul m => m.inplace
  | .sdiv m => m.inplace
  | .gamma => false
  | .cstr _ => false
  | .bplane => false

/-- `N_out` (R109): the size of the output range of a command that is not in place. -/
def outputCount (i : Instr) (s : State) : Nat :=
  match i with
  | .bplane => 8 * (s.H * s.W)
  | _ => s.N

/-- R109 step 3: the source range and, unless in place, the output range lie inside sample RAM and do not overlap. -/
def checkRanges (i : Instr) (s : State) : Option ErrCode :=
  if s.sramBytes < s.S + s.N then some .invalidInput
  else if isInplace i then none
  else if s.sramBytes < s.D + outputCount i s then some .invalidInput
  else if s.S < s.D + outputCount i s ∧ s.D < s.S + s.N then some .invalidInput
  else none

/-- R109 step 4. -/
def checkDomain (i : Instr) (s : State) : Option ErrCode :=
  match i with
  | .sdiv m => if (usedOperands m s.C).any (fun j => s.opnd j == 0#32) then some .domain else none
  | .gamma => if s.gamma = 0#32 ∨ s.gainc = 0#32 then some .domain else none
  | .sadd _ => none
  | .ssub _ => none
  | .smul _ => none
  | .cstr _ => none
  | .bplane => none

/-- `validate(w)`: the first error in the order of R110, if any. -/
def validate (i : Instr) (s : State) : Option ErrCode :=
  ((checkFormat s).or (checkShape i s)).or ((checkRanges i s).or (checkDomain i s))

/-- `raise Error(code)` and the completion that follows (60_exceptions.md R106, R111): STATUS takes the code, the engine
goes idle, DONE is set, nothing else changes. The PITE has no other exception entry (R116); the host returns from it
by acknowledging DONE (R117), the write `clearStatus`. -/
def raiseError (e : ErrCode) (s : State) : State := complete (some e) s

/-- `Execute` and `Complete` of command `i` in one step (30_encoding.md R71): legality, validation, then the command's
own effect `body`, which is `none` only if an access falls outside sample RAM. -/
def executeCommand (i : Instr) (body : State → Option State) (s : State) : Host.Outcome State Fault Refusal :=
  if !i.wellFormed then .next (raiseError .illegalCmd s)
  else match validate i s with
    | some e => .next (raiseError e s)
    | none => match body s with
      | some t => .next (complete none t)
      | none => .fault .sampleRamRange

/-- A command body that changes sample RAM only. -/
def overRam (f : State → Memory → Option Memory) (s : State) : Option State :=
  (f s s.ram).map fun r => { s with ram := r }

/-- The channel a saturating-arithmetic command selects, as a number. -/
def selectorOf : Instr → Nat
  | .sadd m => m.chsel.toNat
  | .ssub m => m.chsel.toNat
  | .smul m => m.chsel.toNat
  | .sdiv m => m.chsel.toNat
  | .gamma => 0
  | .cstr _ => 0
  | .bplane => 0

/-- How many of the `n` offsets from `base` lie in sample RAM. -/
def countInRam (base n : Nat) (s : State) : Nat := min n (s.sramBytes - base)

/-- The offsets of a command's output range that exist in sample RAM: the samples of the selected channel in place,
`[D, D + N_out)` otherwise (40_saturating_arithmetic.md R78, 41_gamma.md R91, 42_contrast_stretch.md R99,
43_bit_plane.md R102). The range of a command that validation lets run lies in sample RAM as a whole (R109). -/
def outputAddrs (i : Instr) (s : State) : List Nat :=
  if isInplace i then
    ((List.range (countInRam s.S s.N s)).filter (fun n => n % s.C == selectorOf i)).map (fun n => s.S + n)
  else (List.range (countInRam s.D (outputCount i s) s)).map (fun n => s.D + n)

/-- The offsets a soft reset in this state leaves unspecified (70_reset_and_hazards.md R128): the output range of the
command in flight `c`, whether or not it would have ended well; an illegal word names no output range (log 7). -/
def abortedAddrs (c : Option Instr) (s : State) : List Nat :=
  if s.busy then c.elim [] (fun i => outputAddrs i s) else []

/-- Soft reset (R126, R128), with `c` the command that CMD holds: the registers go to their reset values, sample RAM
stays but for the output range of an aborted command, which takes a free draw. -/
def softReset (c : Option Instr) (s : State) : State :=
  { State.reset with
    ram := scatterFree s.draws (abortedAddrs c s) s.ram
    draws := s.draws + 1
    agenda := s.agenda
    responses := s.responses }

/-- Power-on reset (R125 to R127): the registers go to their reset values, every byte of sample RAM takes a free
draw. -/
def powerOnReset (s : State) : State :=
  { State.reset with
    ram := s.ram.powerUp s.draws
    draws := s.draws + 1
    agenda := s.agenda
    responses := s.responses }

end Sys2Proof.Machine
end

