-- ==== Sys2Proof/Machine/Bus.lean ====
section
/-! DEFINITION. Host transactions: the bus window (20_memory.md R43 to R50), the register map and its access rules
(10_state.md R20 to R37), sample RAM as the host sees it (R48, R49). -/

namespace Sys2Proof.Machine

/-- The registers of 10_state.md R20. -/
inductive Reg where
  | id | sramsz | ctrl | status | cmd | src | dst | dims | fmt
  | opnd0 | opnd1 | opnd2 | gamma | gainc | cstout | cstsrc | cstobs
deriving DecidableEq, Repr

/-- The register map of R20; every other offset of the register region is reserved (R37). -/
def regMap : List (Nat × Reg) :=
  [(0x000, .id), (0x004, .sramsz), (0x008, .ctrl), (0x00C, .status), (0x010, .cmd), (0x014, .src), (0x018, .dst),
   (0x01C, .dims), (0x020, .fmt), (0x024, .opnd0), (0x028, .opnd1), (0x02C, .opnd2), (0x030, .gamma), (0x034, .gainc),
   (0x038, .cstout), (0x03C, .cstsrc), (0x040, .cstobs)]

/-- The register at a byte offset of the register region. -/
def regAt (offset : Nat) : Option Reg := (regMap.find? (fun e => e.1 == offset)).map (·.2)

/-- The constant ID reads (R22). -/
def idWord : Word := 0x50490100#32

/-- A read of a register (R20 to R36): its current value, at any time, with no side effect (R21, 20_memory.md R54). -/
def regRead (r : Reg) (s : State) : Word :=
  match r with
  | .id => idWord
  | .sramsz => BitVec.ofNat 32 s.sramBytes
  | .ctrl => 0#31 ++ BitVec.ofBool s.ie
  | .status => statusWord s
  | .cmd => s.cmd
  | .src => s.src
  | .dst => s.dst
  | .dims => s.height ++ s.width
  | .fmt => 0#28 ++ s.channels
  | .opnd0 => s.opnd0
  | .opnd1 => s.opnd1
  | .opnd2 => s.opnd2
  | .gamma => s.gamma
  | .gainc => s.gainc
  | .cstout => 0#16 ++ s.outMax ++ s.outMin
  | .cstsrc => 0#16 ++ s.srcMax ++ s.srcMin
  | .cstobs => 0#15 ++ BitVec.ofBool s.obsValid ++ s.obsMax ++ s.obsMin

/-- A write to CTRL (R24): SRST performs the soft reset and discards IE; otherwise IE is bit 0. -/
def writeCtrl (w : Word) (s : State) : State :=
  if w.getLsbD 1 then softReset (decode s.cmd).toOption s else { s with ie := w.getLsbD 0 }

/-- What a write stores while the engine is idle, its reserved bits dropped (R20 to R36); a write to CMD issues a
command (30_encoding.md R70), one to a read-only register does nothing (R21 (a)). -/
def storeReg (r : Reg) (w : Word) (s : State) : State :=
  match r with
  | .id => s
  | .sramsz => s
  | .ctrl => writeCtrl w s
  | .status => clearStatus w s
  | .cmd => accept w s
  | .src => { s with src := w }
  | .dst => { s with dst := w }
  | .dims => { s with width := w.extractLsb' 0 16, height := w.extractLsb' 16 16 }
  | .fmt => { s with channels := w.extractLsb' 0 4 }
  | .opnd0 => { s with opnd0 := w }
  | .opnd1 => { s with opnd1 := w }
  | .opnd2 => { s with opnd2 := w }
  | .gamma => { s with gamma := w }
  | .gainc => { s with gainc := w }
  | .cstout => { s with outMin := w.extractLsb' 0 8, outMax := w.extractLsb' 8 8 }
  | .cstsrc => { s with srcMin := w.extractLsb' 0 8, srcMax := w.extractLsb' 8 8 }
  | .cstobs => s

/-- CMD and the parameter registers, which no write changes while the engine is busy (R21 (b)). -/
def frozenWhileBusy : Reg → Bool
  | .id | .sramsz | .ctrl | .status | .cstobs => false
  | .cmd | .src | .dst | .dims | .fmt | .opnd0 | .opnd1 | .opnd2 | .gamma | .gainc | .cstout | .cstsrc => true

/-- A write to a register (R21). -/
def regWrite (r : Reg) (w : Word) (s : State) : State :=
  if s.busy && frozenWhileBusy r then dropWrite s else storeReg r w s

/-- A 32-bit access to the register region; a reserved offset reads 0 and ignores writes (R37). -/
def regAccess (offset : Nat) (a : Access) (s : State) : State × BusResponse :=
  match a with
  | .read => (s, .okRead ((regAt offset).elim 0#32 (fun r => regRead r s)))
  | .write w => ((regAt offset).elim s (fun r => regWrite r w s), .okWrite)

/-- An access to sample RAM at RAM offset `a` (20_memory.md R48, R49). While busy a write is dropped and a read gives
free bytes, of a draw of its own (log 18). -/
def ramAccess (a : Nat) (size : AccessSize) (acc : Access) (s : State) : State × BusResponse :=
  match acc with
  | .read =>
    if s.busy then
      ({ s with draws := s.draws + 1 }, .okRead (joinBytes size (fun i => Config.freeByte s.draws (a + i))))
    else (s, .okRead (s.ram.readLE a size))
  | .write w =>
    if s.busy then (dropWrite s, .okWrite) else ({ s with ram := s.ram.writeLE a size w }, .okWrite)

/-- An access to a reserved region: reads 0, ignores writes (R44). -/
def reservedAccess (acc : Access) (s : State) : State × BusResponse :=
  match acc with
  | .read => (s, .okRead 0#32)
  | .write _ => (s, .okWrite)

/-- `offset mod size = 0` (R46). -/
def aligned (t : BusTxn) : Bool := t.offset.toNat % sizeBytes t.size == 0

/-- The end of the register region (R44). -/
def regionEnd : Nat := 0x100

/-- The bus offset of sample RAM (R44). -/
def ramBase : Nat := 0x1000000

/-- One host transaction: its effect and its answer (R44, R46, R47). Alignment is checked before the region
(90_conflicts.md C11); an access to sample RAM lies inside as a whole if its first byte does (log 21). -/
def hostAccess (t : BusTxn) (s : State) : State × BusResponse :=
  if !aligned t then (s, .error)
  else if t.offset.toNat < regionEnd then
    (if t.size = .four then regAccess t.offset.toNat t.access s else (s, .error))
  else if ramBase ≤ t.offset.toNat ∧ t.offset.toNat < ramBase + s.sramBytes then
    ramAccess (t.offset.toNat - ramBase) t.size t.access s
  else reservedAccess t.access s

/-- The data on the read path with an answer: 0 unless it is a read answered OK (R46). -/
def readData : BusResponse → Word
  | .okRead w => w
  | .okWrite => 0#32
  | .error => 0#32

/-- The host address of a bus offset (20_memory.md R45; log 4). -/
def hostAddress (offset : BitVec 25) : Nat := Config.piteBase + offset.toNat

/-- The bus offset at a host address, if the address is inside the window (R43, R45). -/
def windowOffset (address : Nat) : Option (BitVec 25) :=
  if Config.piteBase ≤ address ∧ address < Config.piteBase + 2 ^ 25 then
    some (BitVec.ofNat 25 (address - Config.piteBase))
  else none

end Sys2Proof.Machine
end

