-- ==== Sys2Proof/Machine/BitPlane.lean ====
section
/-! DEFINITION. BPLANE (43_bit_plane.md). -/

namespace Sys2Proof.Machine

/-- `plane_k(v) = ((v >> k) & 1) * 255` (R101). -/
def planeSample (k : Nat) (v : Byte) : Byte := if v.getLsbD k then 255#8 else 0#8

/-- `BitPlanes()` (R103): plane `k` goes to `[D + k*N, D + (k+1)*N)`, `N = H*W` (R102). -/
def planesBody (s : State) (r : Memory) : Option Memory :=
  forRange 8 (fun k r => mapSamples s.S (s.D + k * (s.H * s.W)) (s.H * s.W) (fun _ v => planeSample k v) r) r

/-- BPLANE (R103). -/
def execBplane (s : State) : Host.Outcome State Fault Refusal :=
  executeCommand .bplane (overRam planesBody) s

end Sys2Proof.Machine
end

