-- ==== Sys2Proof/Machine/Gamma.lean ====
section
/-! DEFINITION. GAMMA (41_gamma.md). The output is the exact real-number result (R88). With `γ = g/65536 = p/q` and
`c = k/65536`, the result `floor(255*min(1, c*(v/255)^γ) + 1/2)` is the greatest `n <= 255` with
`2n - 1 <= 510 * c * (v/255)^(p/q)`; both sides raised to the power `q` are integers (log 10). -/

namespace Sys2Proof.Machine

/-- The output for sample `v` is at least `n` (for `1 <= n <= 255`):
`((2n-1) * 65536)^q * 255^p <= (510 * k)^q * v^p`. -/
def gammaReaches (g k v n : Nat) : Bool :=
  let q := 65536 / Nat.gcd g 65536
  let p := g / Nat.gcd g 65536
  ((2 * n - 1) * 65536) ^ q * 255 ^ p ≤ (510 * k) ^ q * v ^ p

/-- The greatest level from `n` to `n + 2^bits - 1` that is reached (`n` if none above it is), found bit by bit from the
top; `reach` holds of every level below one it holds of. -/
def greatestReached (reach : Nat → Bool) : Nat → Nat → Nat
  | 0, n => n
  | b + 1, n => greatestReached reach b (if reach (n + 2 ^ b) then n + 2 ^ b else n)

/-- `gamTable(GAMMA, GAINC)[v]` (R88): stages 1 to 5 of R87 for one sample. -/
def gammaSample (g k : Word) (v : Byte) : Byte :=
  BitVec.ofNat 8 (greatestReached (gammaReaches g.toNat k.toNat v.toNat) 8 0)

/-- `Gamma()` (R91). -/
def gammaBody (s : State) (r : Memory) : Option Memory :=
  mapSamples s.S s.D s.N (fun _ v => gammaSample s.gamma s.gainc v) r

/-- GAMMA (R91). -/
def execGamma (s : State) : Host.Outcome State Fault Refusal :=
  executeCommand .gamma (overRam gammaBody) s

end Sys2Proof.Machine
end

