-- ==== Sys2Proof/Machine/Rounding.lean ====
section
/-! DEFINITION. Rounding and clamping (00_scope.md R8, R9): computed on exact integers, narrowed at the end. -/

namespace Sys2Proof.Machine

/-- `rnd(x)` of R9, nearest integer with ties away from zero, over any field with a floor (ℚ and ℝ are used).
The meanings compute with `rndDiv`; this is what it computes. -/
def rnd {K : Type} [Field K] [LinearOrder K] [FloorRing K] (x : K) : Int :=
  if 0 ≤ x then ⌊x + 1 / 2⌋ else -⌊-x + 1 / 2⌋

/-- `rnd(num / den)` on integers, `den > 0` (the exact integer form of 40_saturating_arithmetic.md R83, R84). -/
def rndDivPos (num den : Int) : Int :=
  if 0 ≤ num then (2 * num + den) / (2 * den) else -((2 * (-num) + den) / (2 * den))

/-- `rnd(num / den)` on integers, `den ≠ 0` of either sign. -/
def rndDiv (num den : Int) : Int :=
  if 0 < den then rndDivPos num den else rndDivPos (-num) (-den)

/-- `clamp(0, 255, x)` as a sample (R8). -/
def clampByte (x : Int) : Byte := BitVec.ofInt 8 (min 255 (max 0 x))

end Sys2Proof.Machine
end

