-- ==== Sys2Proof/Machine/SatArith.lean ====
section
/-! DEFINITION. SADD, SSUB, SMUL, SDIV (40_saturating_arithmetic.md). -/

namespace Sys2Proof.Machine

/-- `SatArith(w)` (R78) with the sample function `f v operand`. -/
def satBody (f : Byte → Word → Byte) (m : SatMods) (s : State) (r : Memory) : Option Memory :=
  if m.inplace then
    updateSamples s.S s.N (fun i => i % s.C == m.chsel.toNat) (fun v => f v (operandOf m s m.chsel.toNat)) r
  else
    mapSamples s.S s.D s.N
      (fun i v => if selected m (i % s.C) then f v (operandOf m s (i % s.C)) else v) r

/-- `f(SADD, v, k) = min(255, v + n_k)` (R81). -/
def saddSample (v : Byte) (n : Word) : Byte := clampByte ((v.toNat : Int) + n.toNat)

/-- `f(SSUB, v, k) = max(0, v - n_k)` (R82). -/
def ssubSample (v : Byte) (n : Word) : Byte := clampByte ((v.toNat : Int) - n.toNat)

/-- `f(SMUL, v, k) = min(255, rnd(v * m_k / 65536))` (R83). -/
def smulSample (v : Byte) (m : Word) : Byte := clampByte (rndDiv ((v.toNat : Int) * m.toNat) 65536)

/-- `f(SDIV, v, k) = min(255, rnd(v * 65536 / m_k))`, `m_k > 0` (R84). -/
def sdivSample (v : Byte) (m : Word) : Byte := clampByte (rndDiv ((v.toNat : Int) * 65536) m.toNat)

/-- SADD (R81). -/
def execSadd (m : SatMods) (s : State) : Host.Outcome State Fault Refusal :=
  executeCommand (.sadd m) (overRam (satBody saddSample m)) s

/-- SSUB (R82). -/
def execSsub (m : SatMods) (s : State) : Host.Outcome State Fault Refusal :=
  executeCommand (.ssub m) (overRam (satBody ssubSample m)) s

/-- SMUL (R83). -/
def execSmul (m : SatMods) (s : State) : Host.Outcome State Fault Refusal :=
  executeCommand (.smul m) (overRam (satBody smulSample m)) s

/-- SDIV (R84); a zero among the operand registers it uses is caught by `checkDomain`. -/
def execSdiv (m : SatMods) (s : State) : Host.Outcome State Fault Refusal :=
  executeCommand (.sdiv m) (overRam (satBody sdivSample m)) s

end Sys2Proof.Machine
end

