-- ==== Sys2Proof/Machine/Stretch.lean ====
section
/-! DEFINITION. CSTR (42_contrast_stretch.md). -/

namespace Sys2Proof.Machine

/-- `map(r)` of R96 for `rmin ≠ rmax`: `s(r)` has the exact numerator
`(outMax - outMin) * (r - rmin) + outMin * (rmax - rmin)` over `rmax - rmin`, which may be negative. -/
def stretchSample (outMin outMax rmin rmax r : Int) : Byte :=
  clampByte (rndDiv ((outMax - outMin) * (r - rmin) + outMin * (rmax - rmin)) (rmax - rmin))

/-- The source bounds `(rmin, rmax)` (R95). -/
def stretchBounds (expl : Bool) (s : State) : Option (Nat × Nat) :=
  if expl then some (s.srcMin.toNat, s.srcMax.toNat) else sampleBounds s.S s.ram s.N

/-- The bytes CSTR writes, given its bounds: the fill of R97 or the mapping of R96. -/
def stretchRam (b : Nat × Nat) (s : State) (r : Memory) : Option Memory :=
  if b.1 = b.2 then fillSamples s.D s.N s.outMin r
  else mapSamples s.S s.D s.N
    (fun _ v => stretchSample s.outMin.toNat s.outMax.toNat b.1 b.2 v.toNat) r

/-- DEGEN set by a degenerate range (R97), CSTOBS written in observed mode (R98). -/
def stretchFlags (expl : Bool) (b : Nat × Nat) (s : State) : State :=
  { s with
    degen := s.degen || b.1 == b.2
    obsMin := if expl then s.obsMin else BitVec.ofNat 8 b.1
    obsMax := if expl then s.obsMax else BitVec.ofNat 8 b.2
    obsValid := s.obsValid || !expl }

/-- `Stretch(expl)` (R99). -/
def stretchBody (expl : Bool) (s : State) : Option State :=
  (stretchBounds expl s).bind fun b => (overRam (stretchRam b) s).map (stretchFlags expl b)

/-- CSTR (R99). -/
def execCstr (expl : Bool) (s : State) : Host.Outcome State Fault Refusal :=
  executeCommand (.cstr expl) (stretchBody expl) s

end Sys2Proof.Machine
end

