-- ==== Sys2Proof/Machine/Dispatch.lean ====
section
/-! DEFINITION. One arm per command: `Execute` and `Complete` (30_encoding.md R71). -/

namespace Sys2Proof.Machine

def exec (i : Instr) (s : State) : Host.Outcome State Fault Refusal :=
  match i with
  | .sadd m => Sys2Proof.Machine.execSadd m s
  | .ssub m => Sys2Proof.Machine.execSsub m s
  | .smul m => Sys2Proof.Machine.execSmul m s
  | .sdiv m => Sys2Proof.Machine.execSdiv m s
  | .gamma => Sys2Proof.Machine.execGamma s
  | .cstr expl => Sys2Proof.Machine.execCstr expl s
  | .bplane => Sys2Proof.Machine.execBplane s

end Sys2Proof.Machine
end

