-- ==== Sys2Proof/Machine/Agents.lean ====
section
/-! DEFINITION. The moves of the agents (10_state.md R16): a turn of the engine, a transaction of the host, a power-on
reset; and which of them comes next. -/

namespace Sys2Proof.Machine

/-- The engine's turn (30_encoding.md R71): idle, it does nothing (70_reset_and_hazards.md R129); busy, it executes the
command in CMD, and an illegal word raises ILLEGAL_CMD (R68). -/
def engineTurn (s : State) : Host.Outcome State Fault Refusal :=
  if s.busy then
    match decode s.cmd with
    | .ok i => exec i s
    | .error _ => .next (raiseError .illegalCmd s)
  else .next s

/-- The host's turn: transaction `t` is performed whole (20_memory.md R53, R55) and its answer recorded. -/
def hostTurn (t : BusTxn) (s : State) : State :=
  { (hostAccess t s).1 with responses := (hostAccess t s).2 :: s.responses }

/-- The state without its first event. -/
def popEvent (s : State) : State := { s with agenda := s.agenda.tail }

/-- The move an event stands for. -/
def takeTurn (e : Event) (s : State) : Host.Outcome State Fault Refusal :=
  match e with
  | .bus t => .next (hostTurn t s)
  | .engine => engineTurn s
  | .powerOn => .next (powerOnReset s)

/-- Who moves: the first event of the agenda; with none left, the engine, so that every accepted command completes
(70_reset_and_hazards.md R136; log 1). -/
def nextEvent (s : State) : Event := s.agenda.headD .engine

/-- `w` is the accepted command and the next turn is the engine's (log 2). -/
def placeCommand (w : Word) (s : State) : State := { accept w s with agenda := .engine :: s.agenda }

end Sys2Proof.Machine
end

