-- ==== Sys2Proof/Machine/Step.lean ====
section
/-! DEFINITION. One step of the machine. -/

namespace Sys2Proof.Machine

/-- One step: the next event of the agenda takes its turn. -/
def step (s : State) : Host.Outcome State Fault Refusal := takeTurn (nextEvent s) (popEvent s)

/-- `s` with the command word made of the low `nbits` bits of `w` accepted and the engine's turn next (log 2). -/
def State.withFetchWord (s : State) (nbits w : Nat) : State :=
  placeCommand ((tableWord nbits w).getD 0#32) s

end Sys2Proof.Machine
end

