-- ==== Sys2Proof/Machine/HostOps.lean ====
section
/-! DEFINITION. What a host writes: the assembly syntax of command words (30_encoding.md R73), bus operations (R74) and
the host macros (R75), as functions that make command words and lists of events. -/

namespace Sys2Proof.Machine

/-- The mnemonics of R67. -/
inductive Mnemonic where
  | sadd | ssub | smul | sdiv | gamma | cstr | bplane
deriving DecidableEq, Repr

/-- The modifiers of R73. -/
inductive Modifier where
  /-- `ch=<k>`: CHEN = 1, CHSEL = k. -/
  | ch (k : BitVec 2)
  /-- `perch`: PERCH = 1. -/
  | perch
  /-- `inplace`: INPLACE = 1. -/
  | inplace
  /-- `explicit`: EXPL = 1. -/
  | explicit
deriving DecidableEq, Repr

/-- No modifier: every field 0 (R73). -/
def bareMods : SatMods := { perch := false, chen := false, chsel := 0#2, inplace := false }

/-- The command of a bare mnemonic. -/
def bareCommand : Mnemonic → Instr
  | .sadd => .sadd bareMods
  | .ssub => .ssub bareMods
  | .smul => .smul bareMods
  | .sdiv => .sdiv bareMods
  | .gamma => .gamma
  | .cstr => .cstr false
  | .bplane => .bplane

/-- One modifier on a saturating-arithmetic command; one that is not allowed there, or is given twice, is refused
(log 19). -/
def modifySat (f : Modifier) (m : SatMods) : Option SatMods :=
  match f with
  | .ch k => if m.chen then none else some { m with chen := true, chsel := k }
  | .perch => if m.perch then none else some { m with perch := true }
  | .inplace => if m.inplace then none else some { m with inplace := true }
  | .explicit => none

/-- One modifier on a command (R73). -/
def modifyCommand (i : Instr) (f : Modifier) : Option Instr :=
  match i with
  | .sadd m => (modifySat f m).map .sadd
  | .ssub m => (modifySat f m).map .ssub
  | .smul m => (modifySat f m).map .smul
  | .sdiv m => (modifySat f m).map .sdiv
  | .gamma => none
  | .cstr expl => if f = .explicit ∧ expl = false then some (.cstr true) else none
  | .bplane => none

/-- The modifiers in turn. -/
def modifyAll : List Modifier → Instr → Option Instr
  | [], i => some i
  | f :: fs, i => (modifyCommand i f).bind (modifyAll fs)

/-- The word of a line of assembly (R73); refused if it would not be legal (`inplace` without `ch=`). -/
def assemble (n : Mnemonic) (fs : List Modifier) : Option Word :=
  ((modifyAll fs (bareCommand n)).filter Instr.wellFormed).map encode

/-- `W32 off, v` (R74). -/
def w32 (offset : BitVec 25) (v : Word) : Event := .bus { offset := offset, size := .four, access := .write v }
/-- `W16 off, v` (R74). -/
def w16 (offset : BitVec 25) (v : Word) : Event := .bus { offset := offset, size := .two, access := .write v }
/-- `W8 off, v` (R74). -/
def w8 (offset : BitVec 25) (v : Word) : Event := .bus { offset := offset, size := .one, access := .write v }
/-- `R32 off` (R74). -/
def r32 (offset : BitVec 25) : Event := .bus { offset := offset, size := .four, access := .read }
/-- `R16 off` (R74). -/
def r16 (offset : BitVec 25) : Event := .bus { offset := offset, size := .two, access := .read }
/-- `R8 off` (R74). -/
def r8 (offset : BitVec 25) : Event := .bus { offset := offset, size := .one, access := .read }

/-- `RAM+a` (R74). -/
def ramOffset (a : Nat) : BitVec 25 := BitVec.ofNat 25 (ramBase + a)

/-- The bus offset of a register (10_state.md R20). -/
def regOffset (r : Reg) : BitVec 25 :=
  BitVec.ofNat 25 (((regMap.find? (fun e => e.2 == r)).map (·.1)).getD 0)

/-- `CMD <command>` (R74). -/
def issue (i : Instr) : Event := w32 (regOffset .cmd) (encode i)

/-- `WAIT` (R75), in the run where the engine completes before the first poll (log 20). -/
def waitDone : List Event := [.engine, r32 (regOffset .status)]

/-- `ACK` (R75). -/
def ackDone : Event := w32 (regOffset .status) 0x0000000A#32

/-- `SHAPE W, H, C` (R75). -/
def shape (w h : BitVec 16) (c : Word) : List Event := [w32 (regOffset .dims) (h ++ w), w32 (regOffset .fmt) c]

/-- `BUFS S, D` (R75). -/
def bufs (s d : Word) : List Event := [w32 (regOffset .src) s, w32 (regOffset .dst) d]

/-- `INVERT` (R75). -/
def invert : List Event := [w32 (regOffset .cstout) 0x000000FF#32, issue (.cstr false)]

/-- `FULLSTRETCH` (R75). -/
def fullStretch : List Event := [w32 (regOffset .cstout) 0x0000FF00#32, issue (.cstr false)]

/-- `RUN <command>` (R75). -/
def runCommand (i : Instr) : List Event := issue i :: waitDone

end Sys2Proof.Machine
end

