-- ==== Sys2Proof/Safety.lean ====
section
/-! DEFINITION. The terms statements use: the invariant of the machine, when a command's buffers are in order, and the
host that keeps the duties of 70_reset_and_hazards.md R130. -/

namespace Sys2Proof.Machine

/-- What holds of every reachable state: sample RAM in canonical form; ERR one of the codes that are produced
(60_exceptions.md R107); DEGEN and ERR never both set (10_state.md R25); while busy DONE, DEGEN and ERR are clear
(30_encoding.md R70); CSTOBS ordered, and 0 unless VALID (R36); RAM's free draw is one of those taken. -/
abbrev State.Inv (s : State) : Prop :=
  s.ram.wf
  ∧ s.err.toNat ≤ 4
  ∧ (s.degen = true → s.err = 0#4)
  ∧ (s.busy = true → s.done = false ∧ s.degen = false ∧ s.err = 0#4)
  ∧ s.obsMin.toNat ≤ s.obsMax.toNat
  ∧ (s.obsValid = false → s.obsMin = 0#8 ∧ s.obsMax = 0#8)
  ∧ s.ram.draw < s.draws

/-- R109 step 1 passes: the dimensions are positive and there are 1 or 3 channels. -/
abbrev State.FormatOk (s : State) : Prop :=
  0 < s.width.toNat ∧ 0 < s.height.toNat ∧ (s.channels.toNat = 1 ∨ s.channels.toNat = 3)

/-- The selected channel exists (R109 step 2). -/
abbrev State.SelectorOk (s : State) (m : SatMods) : Prop :=
  m.chen = true → m.chsel.toNat < s.channels.toNat

/-- The source buffer lies inside sample RAM (R109 step 3). -/
abbrev State.SourceOk (s : State) : Prop :=
  s.src.toNat + s.height.toNat * s.width.toNat * s.channels.toNat ≤ s.sramBytes

/-- The output range of `n` bytes lies inside sample RAM and does not overlap the source (R109 step 3). -/
abbrev State.OutputOk (s : State) (n : Nat) : Prop :=
  s.dst.toNat + n ≤ s.sramBytes
  ∧ (s.src.toNat + s.height.toNat * s.width.toNat * s.channels.toNat ≤ s.dst.toNat ∨ s.dst.toNat + n ≤ s.src.toNat)

/-- Offset `a` lies in `[base, base + n)`. -/
abbrev InRange (a base n : Nat) : Prop := base ≤ a ∧ a < base + n

/-- `t` is `s` after a command that ended well and wrote nothing but sample RAM and the completion fields of STATUS
(30_encoding.md R71). -/
abbrev CompletedWell (s t : State) : Prop :=
  t = { s with ram := t.ram, err := 0#4, busy := false, done := true }
  ∧ t.ram.topWord = s.ram.topWord ∧ t.ram.draw = s.ram.draw

/-- The offsets of the selected channel's samples in the source buffer, the output range of an in-place command
(40_saturating_arithmetic.md R78). -/
abbrev InPlaceOffset (s : State) (m : SatMods) (a : Nat) : Prop :=
  ∃ n, n < s.height.toNat * s.width.toNat * s.channels.toNat ∧ n % s.channels.toNat = m.chsel.toNat
    ∧ a = s.src.toNat + n

/-- Offset `a` is in the output range the spec names for the command (40_saturating_arithmetic.md R78, 41_gamma.md R91,
42_contrast_stretch.md R99, 43_bit_plane.md R102), whether or not the command would run. -/
def OutputOffset (i : Instr) (s : State) (a : Nat) : Prop :=
  let n := s.height.toNat * s.width.toNat * s.channels.toNat
  match i with
  | .sadd m | .ssub m | .smul m | .sdiv m =>
    if m.inplace then InPlaceOffset s m a else InRange a s.dst.toNat n
  | .gamma | .cstr _ => InRange a s.dst.toNat n
  | .bplane => InRange a s.dst.toNat (8 * (s.height.toNat * s.width.toNat))

/-- What R76 to R78 ask of a saturating-arithmetic command that runs from `s` to `t`, with `f v operand` the value of
its sample function: every sample of the output range, and no other byte, takes its value. -/
def SatEffect (m : SatMods) (f : Nat → Nat → Int) (s t : State) : Prop :=
  let operand (k : Nat) : Nat := (if m.perch then s.opnd k else s.opnd0).toNat
  let n := s.height.toNat * s.width.toNat * s.channels.toNat
  CompletedWell s t ∧
  if m.inplace then
    (∀ i, i < n → i % s.channels.toNat = m.chsel.toNat →
      ((t.byte (s.src.toNat + i)).toNat : Int) = f (s.byte (s.src.toNat + i)).toNat (operand m.chsel.toNat))
    ∧ ∀ a, ¬ InPlaceOffset s m a → t.byte a = s.byte a
  else
    (∀ i, i < n →
      ((t.byte (s.dst.toNat + i)).toNat : Int) =
        if m.chen = false ∨ i % s.channels.toNat = m.chsel.toNat
        then f (s.byte (s.src.toNat + i)).toNat (operand (i % s.channels.toNat))
        else (s.byte (s.src.toNat + i)).toNat)
    ∧ ∀ a, ¬ InRange a s.dst.toNat n → t.byte a = s.byte a

/-- The buffers and the selector of a saturating-arithmetic command are in order (R109 steps 1 to 3). -/
abbrev State.SatOk (s : State) (m : SatMods) : Prop :=
  m.legal = true ∧ s.FormatOk ∧ s.SelectorOk m ∧ s.SourceOk
  ∧ (m.inplace = false → s.OutputOk (s.height.toNat * s.width.toNat * s.channels.toNat))

/-- Every operand register the command uses is non-zero (R109 step 4, 40_saturating_arithmetic.md R84). -/
abbrev State.OperandsNonzero (s : State) (m : SatMods) : Prop :=
  (m.perch = false → s.opnd0 ≠ 0#32)
  ∧ (m.perch = true → m.chen = true → s.opnd m.chsel.toNat ≠ 0#32)
  ∧ (m.perch = true → m.chen = false → ∀ k, k < s.channels.toNat → s.opnd k ≠ 0#32)

/-- The fields of a saturating-arithmetic command. -/
def satModsOf : Instr → Option SatMods
  | .sadd m => some m
  | .ssub m => some m
  | .smul m => some m
  | .sdiv m => some m
  | .gamma => none
  | .cstr _ => none
  | .bplane => none

/-- The command's word breaks R68: CHSEL without CHEN, or INPLACE without CHEN. -/
def FailsLegality (i : Instr) : Prop :=
  ∃ m, satModsOf i = some m ∧ m.chen = false ∧ (m.chsel ≠ 0#2 ∨ m.inplace = true)

/-- R109 step 2 fails. -/
def FailsShape (i : Instr) (s : State) : Prop :=
  (∃ m, satModsOf i = some m ∧ m.chen = true ∧ s.channels.toNat ≤ m.chsel.toNat)
  ∨ (i = .bplane ∧ s.channels.toNat ≠ 1)

/-- R109 step 3 fails. -/
def FailsRanges (i : Instr) (s : State) : Prop :=
  let n := s.height.toNat * s.width.toNat * s.channels.toNat
  let nOut := if i = .bplane then 8 * s.height.toNat * s.width.toNat else n
  s.sramBytes < s.src.toNat + n
  ∨ (¬ (∃ m, satModsOf i = some m ∧ m.inplace = true)
      ∧ (s.sramBytes < s.dst.toNat + nOut
        ∨ (s.src.toNat < s.dst.toNat + nOut ∧ s.dst.toNat < s.src.toNat + n)))

/-- R109 step 4 fails. -/
def FailsDomain (i : Instr) (s : State) : Prop :=
  (∃ m, i = .sdiv m ∧ ¬ s.OperandsNonzero m) ∨ (i = .gamma ∧ (s.gamma = 0#32 ∨ s.gainc = 0#32))

/-- `rmin` and `rmax` are the least and the greatest sample of the source buffer (42_contrast_stretch.md R95 (a)). -/
def State.Observed (s : State) (rmin rmax : Byte) : Prop :=
  let n := s.height.toNat * s.width.toNat * s.channels.toNat
  (∃ i, i < n ∧ s.byte (s.src.toNat + i) = rmin) ∧ (∃ i, i < n ∧ s.byte (s.src.toNat + i) = rmax)
  ∧ ∀ i, i < n → rmin.toNat ≤ (s.byte (s.src.toNat + i)).toNat ∧ (s.byte (s.src.toNat + i)).toNat ≤ rmax.toNat

/-- `map(r)` of R96 over the rationals. -/
def stretchValue (outMin outMax rmin rmax r : Rat) : Int :=
  min 255 (max 0 (rnd ((outMax - outMin) / (rmax - rmin) * (r - rmin) + outMin)))

/-- The parameter registers, the size of sample RAM and the source samples of the two states agree. -/
def SameInputs (s t : State) : Prop :=
  s.src = t.src ∧ s.dst = t.dst ∧ s.width = t.width ∧ s.height = t.height ∧ s.channels = t.channels
  ∧ s.opnd0 = t.opnd0 ∧ s.opnd1 = t.opnd1 ∧ s.opnd2 = t.opnd2 ∧ s.gamma = t.gamma ∧ s.gainc = t.gainc
  ∧ s.outMin = t.outMin ∧ s.outMax = t.outMax ∧ s.srcMin = t.srcMin ∧ s.srcMax = t.srcMax
  ∧ s.ram.topWord = t.ram.topWord
  ∧ ∀ i, i < s.height.toNat * s.width.toNat * s.channels.toNat →
      s.byte (s.src.toNat + i) = t.byte (s.src.toNat + i)

/-- The engine's loop over samples (or over planes and samples), taken in any given order. -/
def forOrder {ι : Type} (order : List ι) (body : ι → Memory → Option Memory) (m : Memory) : Option Memory :=
  order.foldlM (fun m i => body i m) m

/-- The search for the least and the greatest sample (42_contrast_stretch.md R95 (a)), taken in any given order. -/
def boundsOrder (src : Nat) (m : Memory) (order : List Nat) : Option (Nat × Nat) :=
  order.foldlM (fun b i => (m.read (src + i)).map fun v => (min b.1 v.toNat, max b.2 v.toNat)) (255, 0)

/-- The host reads the 32-bit word at bus offset `n` (`R32 n` of 30_encoding.md R74). -/
abbrev readWord (n : BitVec 25) (s : State) : State × BusResponse :=
  hostAccess { offset := n, size := .four, access := .read } s

/-- The host writes the 32-bit word `w` at bus offset `n` (`W32 n, w` of 30_encoding.md R74). -/
abbrev writeWord (n : BitVec 25) (w : Word) (s : State) : State × BusResponse :=
  hostAccess { offset := n, size := .four, access := .write w } s

/-- A read at bus offset `n` answers `v` and changes nothing. -/
abbrev ReadsAs (n : BitVec 25) (v : Word) (s : State) : Prop := readWord n s = (s, .okRead v)

/-- Every register reads its reset value in `t` (10_state.md R20), ID and SRAMSZ as they read in `s`; the engine is idle
and irq is low (70_reset_and_hazards.md R126). -/
def RegistersReset (s t : State) : Prop :=
  ReadsAs 0x00#25 0x50490100#32 t
  ∧ (∃ v, ReadsAs 0x04#25 v s ∧ ReadsAs 0x04#25 v t)
  ∧ (∀ n ∈ [0x08#25, 0x0C#25, 0x10#25, 0x14#25, 0x18#25, 0x1C#25, 0x20#25, 0x24#25, 0x28#25, 0x2C#25, 0x30#25, 0x38#25,
      0x3C#25, 0x40#25], ReadsAs n 0#32 t)
  ∧ ReadsAs 0x34#25 0x00010000#32 t
  ∧ t.busy = false ∧ irq t = false

/-- `n` is the offset of a register of 10_state.md R20. -/
abbrev RegisterOffset (n : BitVec 25) : Prop := n.toNat ≤ 0x40 ∧ n.toNat % 4 = 0

/-- The transaction is a write to sample RAM, to CMD or to a parameter register. -/
def writesFrozen (t : BusTxn) (s : State) : Bool :=
  match t.access with
  | .read => false
  | .write _ =>
    aligned t &&
      (if t.offset.toNat < regionEnd then
        t.size == .four && (regAt t.offset.toNat).elim false frozenWhileBusy
      else decide (ramBase ≤ t.offset.toNat ∧ t.offset.toNat < ramBase + s.sramBytes))

/-- The next event keeps the host's duty not to write sample RAM, CMD or a parameter register while the engine is busy
(70_reset_and_hazards.md R130, R131). -/
def State.compliant (s : State) : Bool :=
  match nextEvent s with
  | .bus t => !s.busy || !writesFrozen t s
  | .engine => true
  | .powerOn => true

end Sys2Proof.Machine
end

