-- ==== Sys2Proof/Certificates/Slice0/Obligations.lean ====
section
/-! DEFINITION. The statements for the provers. Each docstring cites the rules of spec/ it formalises. -/

open Sys2Proof Sys2Proof.Machine

/-! ### Encoding (30_encoding.md) -/

/-- R65, R67, R68: the word of every well-formed command decodes to that command. -/
def Obligations.DecodeInvertsEncode : Prop :=
  ∀ i : Instr, i.wellFormed = true → decode (encode i) = .ok i

/-- R65, R67: a word that decodes to a command is that command's word, and the command is well formed: no two words
stand for one command, and no bit of a word is dropped. -/
def Obligations.EncodeInvertsDecode : Prop :=
  ∀ (w : Word) (i : Instr), decode w = .ok i → i.wellFormed = true ∧ encode i = w

/-- R68, clause by clause: the decoder takes exactly the legal words. -/
def Obligations.DecoderTakesExactlyTheLegalWords : Prop :=
  ∀ w : Word, (∃ i, decode w = .ok i) ↔
    (w.toNat / 2 ^ 10 = 0
    ∧ (1 ≤ w.toNat % 16 ∧ w.toNat % 16 ≤ 7)
    ∧ (w.toNat % 16 ≤ 4 →
        w.getLsbD 9 = false
        ∧ (w.getLsbD 5 = true ∨ (w.getLsbD 7 = false ∧ w.getLsbD 6 = false))
        ∧ (w.getLsbD 8 = false ∨ w.getLsbD 5 = true))
    ∧ (w.toNat % 16 = 6 → w.toNat / 16 % 32 = 0)
    ∧ (w.toNat % 16 = 5 ∨ w.toNat % 16 = 7 → w.toNat / 16 % 64 = 0))

/-- The example words of R73 decode to the commands they stand for. -/
def Obligations.ExampleWordsDecode : Prop :=
  decode 0x00000001#32 = .ok (.sadd { perch := false, chen := false, chsel := 0#2, inplace := false })
  ∧ decode 0x000000A2#32 = .ok (.ssub { perch := false, chen := true, chsel := 2#2, inplace := false })
  ∧ decode 0x00000013#32 = .ok (.smul { perch := true, chen := false, chsel := 0#2, inplace := false })
  ∧ decode 0x00000121#32 = .ok (.sadd { perch := false, chen := true, chsel := 0#2, inplace := true })
  ∧ decode 0x00000206#32 = .ok (.cstr true)
  ∧ decode 0x00000005#32 = .ok .gamma
  ∧ decode 0x00000007#32 = .ok .bplane

/-- R73: an assembler emits only legal words. -/
def Obligations.AssemblerEmitsOnlyLegalWords : Prop :=
  ∀ (n : Mnemonic) (fs : List Modifier) (w : Word), assemble n fs = some w → ∃ i, decode w = .ok i

/-! ### The step (30_encoding.md R70, R71) -/

/-- When the engine has its turn (by the agenda, or because the agenda is used up) and the word in CMD decodes to `i`,
the step is `exec i`, on the state without the event used. -/
def Obligations.StepRunsTheDecodedCommand : Prop :=
  ∀ (s : State) (i : Instr), s.busy = true → decode s.cmd = .ok i →
    (∀ rest, s.agenda = .engine :: rest → step s = exec i { s with agenda := rest })
    ∧ (s.agenda = [] → step s = exec i s)

/-- R68, R69, R71: on the engine's turn (by the agenda, or, by the model's choice of log 1, because the agenda is
used up) an illegal word in flight raises ILLEGAL_CMD (code 4) with no other effect than completion. -/
def Obligations.IllegalWordRaisesIllegalCmd : Prop :=
  ∀ s : State, s.busy = true → (∀ i, decode s.cmd ≠ .ok i) →
    (∀ rest, s.agenda = .engine :: rest →
      step s = .next { s with agenda := rest, err := 4#4, busy := false, done := true })
    ∧ (s.agenda = [] → step s = .next { s with err := 4#4, busy := false, done := true })

/-- 70_reset_and_hazards.md R129: an idle engine does nothing, and a machine with no event to come stays as it is. -/
def Obligations.IdleEngineDoesNothing : Prop :=
  ∀ s : State, s.busy = false →
    (∀ rest, s.agenda = .engine :: rest → step s = .next { s with agenda := rest })
    ∧ (s.agenda = [] → step s = .next s)

/-- 20_memory.md R53, R55: a host event is one whole transaction, its answer recorded in order. -/
def Obligations.HostStepPerformsTheTransaction : Prop :=
  ∀ (s : State) (x : BusTxn) (rest : List Event), s.agenda = .bus x :: rest →
    ∃ t, step s = .next t
      ∧ t = { (hostAccess x { s with agenda := rest }).1 with
              responses := (hostAccess x { s with agenda := rest }).2 :: s.responses }
      ∧ t.agenda = rest

/-- R70: what the acceptance of a command changes, legal or not, and that nothing else changes (WERR and CSTOBS stay);
while busy the write is not accepted, and only sets WERR (R21). -/
def Obligations.AcceptanceStoresTheWordAndSetsBusy : Prop :=
  ∀ (s : State) (w : Word),
    (s.busy = false → hostAccess { offset := 0x10#25, size := .four, access := .write w } s
      = ({ s with cmd := w, done := false, degen := false, err := 0#4, busy := true }, .okWrite))
    ∧ (s.busy = true → hostAccess { offset := 0x10#25, size := .four, access := .write w } s
      = ({ s with werr := true }, .okWrite))

/-! ### Saturating arithmetic (40_saturating_arithmetic.md) -/

/-- R76 to R78, R81: SADD completes and writes `min(255, v + n_k)`, in place or not. -/
def Obligations.SaddWritesSaturatedSums : Prop :=
  ∀ (m : SatMods) (s : State), s.SatOk m →
    ∃ t, exec (.sadd m) s = .next t ∧ SatEffect m (fun v n => min 255 ((v : Int) + n)) s t

/-- R76 to R78, R82: SSUB completes and writes `max(0, v - n_k)`, in place or not. -/
def Obligations.SsubWritesSaturatedDifferences : Prop :=
  ∀ (m : SatMods) (s : State), s.SatOk m →
    ∃ t, exec (.ssub m) s = .next t ∧ SatEffect m (fun v n => max 0 ((v : Int) - n)) s t

/-- R76 to R78, R83: SMUL completes and writes `min(255, rnd(v * q_k))` with `q_k = m_k / 65536`, in place or not. -/
def Obligations.SmulWritesRoundedProducts : Prop :=
  ∀ (m : SatMods) (s : State), s.SatOk m →
    ∃ t, exec (.smul m) s = .next t
      ∧ SatEffect m (fun v q => min 255 (rnd ((v : Rat) * ((q : Rat) / 65536)))) s t

/-- R76 to R78, R84: SDIV with non-zero operands completes and writes `min(255, rnd(v / q_k))`, in place or not. -/
def Obligations.SdivWritesRoundedQuotients : Prop :=
  ∀ (m : SatMods) (s : State), s.SatOk m → s.OperandsNonzero m →
    ∃ t, exec (.sdiv m) s = .next t
      ∧ SatEffect m (fun v q => min 255 (rnd ((v : Rat) / ((q : Rat) / 65536)))) s t

/-- R86: with a channel selector every byte of another channel equals the input byte at its index, and in place it is
not written. -/
def Obligations.ChannelSelectorIsolatesChannels : Prop :=
  ∀ (m : SatMods) (s : State) (i : Instr), i = .sadd m ∨ i = .ssub m ∨ i = .smul m ∨ i = .sdiv m →
    s.SatOk m → (i = .sdiv m → s.OperandsNonzero m) → m.chen = true →
    ∃ t, exec i s = .next t
      ∧ ∀ n, n < s.height.toNat * s.width.toNat * s.channels.toNat → n % s.channels.toNat ≠ m.chsel.toNat →
        t.byte ((if m.inplace then s.src.toNat else s.dst.toNat) + n) = s.byte (s.src.toNat + n)

/-- R85 (c): each sample function is monotone non-decreasing in the sample, for a fixed operand. -/
def Obligations.SampleFunctionsAreMonotone : Prop :=
  ∀ (v v' : Byte) (n : Word), v.toNat ≤ v'.toNat →
    (saddSample v n).toNat ≤ (saddSample v' n).toNat
    ∧ (ssubSample v n).toNat ≤ (ssubSample v' n).toNat
    ∧ (smulSample v n).toNat ≤ (smulSample v' n).toNat
    ∧ (n ≠ 0#32 → (sdivSample v n).toNat ≤ (sdivSample v' n).toNat)

/-- R85 (b), (d): which sample functions never decrease or never increase a sample, and that SADD then SSUB is not the
identity. -/
def Obligations.SampleFunctionsMoveOneWay : Prop :=
  (∀ (v : Byte) (n : Word),
    v.toNat ≤ (saddSample v n).toNat
    ∧ (ssubSample v n).toNat ≤ v.toNat
    ∧ (65536 ≤ n.toNat → v.toNat ≤ (smulSample v n).toNat)
    ∧ (0 < n.toNat ∧ n.toNat ≤ 65536 → v.toNat ≤ (sdivSample v n).toNat))
  ∧ ssubSample (saddSample 200#8 100#32) 100#32 = 155#8

/-! ### Gamma (41_gamma.md) -/

/-- R87, R88, R91: GAMMA completes and writes the exact value `rnd(255 * min(1, c * (v/255)^γ))` of the real
pipeline, with no tolerance. -/
def Obligations.GammaWritesTheExactPowerLaw : Prop :=
  ∀ s : State, s.FormatOk → s.SourceOk → s.OutputOk (s.height.toNat * s.width.toNat * s.channels.toNat) →
    s.gamma ≠ 0#32 → s.gainc ≠ 0#32 →
    ∃ t, exec .gamma s = .next t ∧ CompletedWell s t
      ∧ (∀ i, i < s.height.toNat * s.width.toNat * s.channels.toNat →
          ((t.byte (s.dst.toNat + i)).toNat : Int) =
            rnd (255 * min 1 (((s.gainc.toNat : Real) / 65536)
              * (((s.byte (s.src.toNat + i)).toNat : Real) / 255) ^ ((s.gamma.toNat : Real) / 65536))))
      ∧ ∀ a, ¬ InRange a s.dst.toNat (s.height.toNat * s.width.toNat * s.channels.toNat) → t.byte a = s.byte a

/-- R94 (a), (b): `γ = c = 1` is the identity; 0 maps to 0 for every legal parameter, and 255 to 255 for `c = 1` and
every legal `γ`. -/
def Obligations.GammaFixedPoints : Prop :=
  (∀ v : Byte, gammaSample 0x00010000#32 0x00010000#32 v = v)
  ∧ (∀ g k : Word, g ≠ 0#32 → k ≠ 0#32 → gammaSample g k 0#8 = 0#8)
  ∧ ∀ g : Word, g ≠ 0#32 → gammaSample g 0x00010000#32 255#8 = 255#8

/-- R94 (d): for fixed `γ` and `c` the output is monotone non-decreasing in the sample. -/
def Obligations.GammaIsMonotone : Prop :=
  ∀ (g k : Word) (v v' : Byte), g ≠ 0#32 → k ≠ 0#32 → v.toNat ≤ v'.toNat →
    (gammaSample g k v).toNat ≤ (gammaSample g k v').toNat

/-- R94 (c): `γ < 1` with `c >= 1` never darkens a sample, `γ > 1` with `c <= 1` never brightens one. -/
def Obligations.GammaBrightensOrDarkens : Prop :=
  ∀ (g k : Word) (v : Byte), g ≠ 0#32 → k ≠ 0#32 →
    (g.toNat < 65536 → 65536 ≤ k.toNat → v.toNat ≤ (gammaSample g k v).toNat)
    ∧ (65536 < g.toNat → k.toNat ≤ 65536 → (gammaSample g k v).toNat ≤ v.toNat)

/-! ### Contrast stretch (42_contrast_stretch.md) -/

/-- R95 (a), R96, R98, R99: CSTR in observed mode over a range that is not degenerate completes, maps every sample by
the formula over the rationals, and records the bounds in CSTOBS. -/
def Obligations.ObservedStretchMapsEverySample : Prop :=
  ∀ (s : State) (rmin rmax : Byte), s.FormatOk → s.SourceOk →
    s.OutputOk (s.height.toNat * s.width.toNat * s.channels.toNat) → s.Observed rmin rmax → rmin ≠ rmax →
    ∃ t, exec (.cstr false) s = .next t
      ∧ t = { s with ram := t.ram, err := 0#4, busy := false, done := true,
                     obsMin := rmin, obsMax := rmax, obsValid := true }
      ∧ t.ram.topWord = s.ram.topWord ∧ t.ram.draw = s.ram.draw
      ∧ (∀ i, i < s.height.toNat * s.width.toNat * s.channels.toNat →
          ((t.byte (s.dst.toNat + i)).toNat : Int) =
            stretchValue s.outMin.toNat s.outMax.toNat rmin.toNat rmax.toNat (s.byte (s.src.toNat + i)).toNat)
      ∧ ∀ a, ¬ InRange a s.dst.toNat (s.height.toNat * s.width.toNat * s.channels.toNat) → t.byte a = s.byte a

/-- R95 (b), R96, R98, R99: CSTR in explicit mode with `SRCMIN ≠ SRCMAX`, in either order, completes, maps every sample
by the formula over the rationals clamped to 0..255, and leaves CSTOBS as it was. -/
def Obligations.ExplicitStretchMapsEverySample : Prop :=
  ∀ s : State, s.FormatOk → s.SourceOk →
    s.OutputOk (s.height.toNat * s.width.toNat * s.channels.toNat) → s.srcMin ≠ s.srcMax →
    ∃ t, exec (.cstr true) s = .next t ∧ CompletedWell s t
      ∧ (∀ i, i < s.height.toNat * s.width.toNat * s.channels.toNat →
          ((t.byte (s.dst.toNat + i)).toNat : Int) =
            stretchValue s.outMin.toNat s.outMax.toNat s.srcMin.toNat s.srcMax.toNat
              (s.byte (s.src.toNat + i)).toNat)
      ∧ ∀ a, ¬ InRange a s.dst.toNat (s.height.toNat * s.width.toNat * s.channels.toNat) → t.byte a = s.byte a

/-- R97, R98: over a degenerate range CSTR fills the output with OUTMIN, whatever OUTMAX is, sets DEGEN and completes
with ERR = 0; observed mode records the one value in CSTOBS, explicit mode leaves CSTOBS as it was. -/
def Obligations.DegenerateStretchFillsWithOutMin : Prop :=
  ∀ (s : State) (expl : Bool) (r : Byte), s.FormatOk → s.SourceOk →
    s.OutputOk (s.height.toNat * s.width.toNat * s.channels.toNat) →
    (expl = false → s.Observed r r) → (expl = true → s.srcMin = s.srcMax) →
    ∃ t, exec (.cstr expl) s = .next t
      ∧ t = { s with ram := t.ram, err := 0#4, busy := false, done := true, degen := true,
                     obsMin := if expl then s.obsMin else r, obsMax := if expl then s.obsMax else r,
                     obsValid := if expl then s.obsValid else true }
      ∧ t.ram.topWord = s.ram.topWord ∧ t.ram.draw = s.ram.draw
      ∧ (∀ i, i < s.height.toNat * s.width.toNat * s.channels.toNat → t.byte (s.dst.toNat + i) = s.outMin)
      ∧ ∀ a, ¬ InRange a s.dst.toNat (s.height.toNat * s.width.toNat * s.channels.toNat) → t.byte a = s.byte a

/-- R100 (a), (b): the bounds map to OUTMIN and OUTMAX exactly, and the full-range inversion is `255 - r`. -/
def Obligations.StretchEndpointsAreExact : Prop :=
  (∀ outMin outMax rmin rmax : Byte, rmin ≠ rmax →
    stretchSample outMin.toNat outMax.toNat rmin.toNat rmax.toNat rmin.toNat = outMin
    ∧ stretchSample outMin.toNat outMax.toNat rmin.toNat rmax.toNat rmax.toNat = outMax)
  ∧ ∀ r : Byte, (stretchSample 255 0 0 255 r.toNat).toNat = 255 - r.toNat

/-- R100 (c): for ordered source bounds the map is non-decreasing when OUTMIN is below OUTMAX and non-increasing when it
is above. -/
def Obligations.StretchKeepsOrInvertsOrder : Prop :=
  ∀ outMin outMax rmin rmax r r' : Byte, rmin.toNat < rmax.toNat → r.toNat ≤ r'.toNat →
    (outMin.toNat < outMax.toNat →
      (stretchSample outMin.toNat outMax.toNat rmin.toNat rmax.toNat r.toNat).toNat
        ≤ (stretchSample outMin.toNat outMax.toNat rmin.toNat rmax.toNat r'.toNat).toNat)
    ∧ (outMax.toNat < outMin.toNat →
      (stretchSample outMin.toNat outMax.toNat rmin.toNat rmax.toNat r'.toNat).toNat
        ≤ (stretchSample outMin.toNat outMax.toNat rmin.toNat rmax.toNat r.toNat).toNat)

/-! ### Bit planes (43_bit_plane.md) -/

/-- R101 to R103: BPLANE completes and writes plane `k` at `[D + k*N, D + (k+1)*N)`, 255 where bit `k` of the sample is
1 and 0 where it is 0. -/
def Obligations.BplaneWritesEightPlanes : Prop :=
  ∀ s : State, s.FormatOk → s.channels = 1#4 → s.SourceOk → s.OutputOk (8 * (s.height.toNat * s.width.toNat)) →
    ∃ t, exec .bplane s = .next t ∧ CompletedWell s t
      ∧ (∀ k i, k < 8 → i < s.height.toNat * s.width.toNat →
          (t.byte (s.dst.toNat + k * (s.height.toNat * s.width.toNat) + i)).toNat
            = (s.byte (s.src.toNat + i)).toNat / 2 ^ k % 2 * 255)
      ∧ ∀ a, ¬ InRange a s.dst.toNat (8 * (s.height.toNat * s.width.toNat)) → t.byte a = s.byte a

/-- R104: after BPLANE the planes, as bits, give back every source sample. -/
def Obligations.BitPlanesReconstructTheSource : Prop :=
  ∀ s : State, s.FormatOk → s.channels = 1#4 → s.SourceOk → s.OutputOk (8 * (s.height.toNat * s.width.toNat)) →
    ∃ t, exec .bplane s = .next t
      ∧ ∀ i, i < s.height.toNat * s.width.toNat →
        ((List.range 8).map fun k =>
          (t.byte (s.dst.toNat + k * (s.height.toNat * s.width.toNat) + i)).toNat / 255 * 2 ^ k).sum
          = (s.byte (s.src.toNat + i)).toNat

/-! ### Errors (60_exceptions.md) -/

/-- R109, R110: every command ends with the code of the first check that fails, in the order legality (4), format (3),
shape (2), ranges (3), domain (1), and with 0 if none does. `exec` of a term whose word breaks R68 is the model's choice
(log 12): the decoder yields no such term, and IllegalWordRaisesIllegalCmd speaks of the words. -/
def Obligations.FirstFailingCheckIsReported : Prop :=
  ∀ (i : Instr) (s : State), ∃ t, exec i s = .next t ∧ t.busy = false ∧ t.done = true
    ∧ (FailsLegality i → t.err = 4#4)
    ∧ (¬ FailsLegality i → ¬ s.FormatOk → t.err = 3#4)
    ∧ (¬ FailsLegality i → s.FormatOk → FailsShape i s → t.err = 2#4)
    ∧ (¬ FailsLegality i → s.FormatOk → ¬ FailsShape i s → FailsRanges i s → t.err = 3#4)
    ∧ (¬ FailsLegality i → s.FormatOk → ¬ FailsShape i s → ¬ FailsRanges i s → FailsDomain i s → t.err = 1#4)
    ∧ (¬ FailsLegality i → s.FormatOk → ¬ FailsShape i s → ¬ FailsRanges i s → ¬ FailsDomain i s → t.err = 0#4)

/-- R106, R111: a command that ends with a code other than 0 changes nothing but the completion fields of STATUS. -/
def Obligations.FailedCommandHasNoOtherEffect : Prop :=
  ∀ (i : Instr) (s t : State), exec i s = .next t → t.err ≠ 0#4 →
    t = { s with err := t.err, busy := false, done := true }

/-- Frame of every command: the parameter registers, CTRL, CMD, WERR, the size of RAM and the model's own fields stay;
DEGEN and CSTOBS stay unless the command is CSTR (CSTOBS: in observed mode). -/
def Obligations.CommandsChangeOnlyTheirResults : Prop :=
  ∀ (i : Instr) (s t : State), exec i s = .next t →
    t = { s with ram := t.ram, err := t.err, busy := false, done := true, degen := t.degen,
                 obsMin := t.obsMin, obsMax := t.obsMax, obsValid := t.obsValid }
    ∧ t.ram.topWord = s.ram.topWord ∧ t.ram.draw = s.ram.draw
    ∧ ((∀ expl, i ≠ .cstr expl) → t.degen = s.degen)
    ∧ (i ≠ .cstr false → t.obsMin = s.obsMin ∧ t.obsMax = s.obsMax ∧ t.obsValid = s.obsValid)

/-- R51, R59: a command writes only inside its output range: `[D, D + N_out)`, or in place the selected channel's
samples of the source. -/
def Obligations.CommandsWriteOnlyTheirOutputRange : Prop :=
  ∀ (i : Instr) (s t : State) (a : Nat), exec i s = .next t → ¬ OutputOffset i s a → t.byte a = s.byte a

/-- R38: the result of a command (its code, and if it ends well its output bytes, its degenerate warning and the bounds
it observes) is a function of the parameter registers and the source samples alone. -/
def Obligations.ResultDependsOnlyOnParametersAndSource : Prop :=
  ∀ (i : Instr) (s s' : State), SameInputs s s' →
    ∃ t t', exec i s = .next t ∧ exec i s' = .next t' ∧ t.err = t'.err
      ∧ (t.err = 0#4 →
          (∀ a, OutputOffset i s a → t.byte a = t'.byte a)
          ∧ (s.degen = s'.degen → t.degen = t'.degen)
          ∧ (i = .cstr false → t.obsMin = t'.obsMin ∧ t.obsMax = t'.obsMax ∧ t.obsValid = t'.obsValid))

/-- 20_memory.md R58: the order in which the engine takes the samples is not observable: in the loops over samples
(out of place, in place, and the fill of R97), in the search for the bounds (R95), and over the planes and samples of BPLANE
(R103), which may be mixed. -/
def Obligations.SampleOrderIsNotObservable : Prop :=
  ∀ (m : Memory) (src dst n : Nat) (order : List Nat), m.wf → order.Perm (List.range n) → src + n ≤ m.bytes →
    (∀ g, dst + n ≤ m.bytes → (src + n ≤ dst ∨ dst + n ≤ src) →
      ∃ r, mapSamples src dst n g m = some r
        ∧ forOrder order (fun i m => (m.read (src + i)).bind fun v => m.write (dst + i) (g i v)) m = some r)
    ∧ (∀ p g, ∃ r, updateSamples src n p g m = some r
        ∧ forOrder order
            (fun i m => if p i then (m.read (src + i)).bind fun v => m.write (src + i) (g v) else some m) m = some r)
    ∧ (∀ v, dst + n ≤ m.bytes →
      ∃ r, fillSamples dst n v m = some r ∧ forOrder order (fun i m => m.write (dst + i) v) m = some r)
    ∧ (∃ b, sampleBounds src m n = some b ∧ boundsOrder src m order = some b)
    ∧ ∀ (s : State) (planes : List (Nat × Nat)), s.src.toNat = src → s.dst.toNat = dst →
        s.height.toNat * s.width.toNat = n → planes.Perm ((List.range 8).product (List.range n)) →
        dst + 8 * n ≤ m.bytes → (src + n ≤ dst ∨ dst + 8 * n ≤ src) →
      ∃ r, planesBody s m = some r
        ∧ forOrder planes
            (fun p m => (m.read (src + p.2)).bind fun v => m.write (dst + p.1 * n + p.2) (planeSample p.1 v)) m = some r

/-! ### Safety, liveness, invariant -/

/-- R109, R112, R12: every command, in every state, ends in a next state: no access outside sample RAM, nothing refused.
That this holds of ill-formed terms, which the decoder never yields, is the model's choice (log 12). -/
def Obligations.EveryCommandCompletes : Prop :=
  ∀ (i : Instr) (s : State), ∃ t, exec i s = .next t ∧ t.busy = false ∧ t.done = true

/-- 92_eei_decisions.md D40: no host and no schedule stops the machine: every run of any length goes on. -/
def Obligations.NoRunStops : Prop :=
  ∀ (k : Nat) (s : State), ∃ t, Host.Core.run Sys2Proof.core k s = .next t

/-- 70_reset_and_hazards.md R136: every accepted command completes: once the host has made its moves and the engine has
had its turn, the engine is idle. -/
def Obligations.AcceptedCommandsComplete : Prop :=
  ∀ s : State, ∃ t : State, Host.Core.run Sys2Proof.core (s.agenda.length + 1) s = .next t
    ∧ t.busy = false ∧ t.agenda = []

/-- The invariant holds after power-on reset. -/
def Obligations.ResetSatisfiesTheInvariant : Prop := State.reset.Inv

/-- The invariant (sample RAM canonical and in bounds, ERR a produced code, DEGEN and ERR exclusive, the flags of a busy
engine, CSTOBS ordered) is kept by every step. -/
def Obligations.EveryStepKeepsTheInvariant : Prop :=
  ∀ s t : State, s.Inv → step s = .next t → t.Inv

/-- Two sample RAMs in canonical form that list the same byte at every offset are the same data. -/
def Obligations.CanonicalMemoryIsUnique : Prop :=
  ∀ m m' : Memory, m.wf → m'.wf → m.topWord = m'.topWord → m.draw = m'.draw →
    (∀ a, lookupCell m.cells a = lookupCell m'.cells a) → m = m'

/-! ### Resets (70_reset_and_hazards.md) -/

/-- R126, with the reset column of 10_state.md R20: after a soft reset (the CTRL write with SRST = 1, whatever the engine
does) and after a power-on reset every register reads its reset value at its offset, ID and SRAMSZ are not affected, the
engine is idle and irq is low. -/
def Obligations.BothResetsGiveTheResetValues : Prop :=
  ∀ s : State,
    (∀ w, w.getLsbD 1 = true → ∃ t, writeWord 0x08#25 w s = (t, .okWrite) ∧ RegistersReset s t)
    ∧ ∀ rest, s.agenda = .powerOn :: rest → ∃ t, step s = .next t ∧ RegistersReset s t

/-- R128: a write to CTRL with SRST = 1 while a command is in flight ends it without DONE, and leaves each byte of its
output range a free value, whether or not it would have ended well, and every other byte unchanged; while idle no byte
changes. That no byte changes when an illegal word is aborted is the model's choice (log 7), and the free draw's number is
the model's own (log 5). -/
def Obligations.SoftResetAbortsTheCommandInFlight : Prop :=
  ∀ (s : State) (w : Word), w.getLsbD 1 = true →
    ∃ t, writeWord 0x08#25 w s = (t, .okWrite)
      ∧ t.busy = false ∧ t.done = false ∧ t.err = 0#4 ∧ t.ie = false
      ∧ ReadsAs 0x40#25 0#32 t
      ∧ (s.busy = false → ∀ a, t.byte a = s.byte a)
      ∧ (s.busy = true → ∀ i, decode s.cmd = .ok i → ∀ a,
          (a < s.sramBytes ∧ OutputOffset i s a → t.byte a = Config.freeByte s.draws a)
          ∧ (¬ (a < s.sramBytes ∧ OutputOffset i s a) → t.byte a = s.byte a))
      ∧ (s.busy = true → (∀ i, decode s.cmd ≠ .ok i) → ∀ a, t.byte a = s.byte a)

/-- R127: after power-on reset every byte of sample RAM holds the value of one free draw, a draw not taken before. -/
def Obligations.PowerOnLeavesRamUnspecified : Prop :=
  ∀ (s : State) (rest : List Event), s.agenda = .powerOn :: rest →
    ∃ t, step s = .next t ∧ t.agenda = rest ∧ t.ram.topWord = s.ram.topWord
      ∧ (∀ a, t.byte a = Config.freeByte s.draws a) ∧ s.draws < t.draws

/-! ### The bus (20_memory.md) and the registers (10_state.md) -/

/-- R47: ERROR is returned for exactly the misaligned transactions and the 1- and 2-byte transactions to the register
region, and such a transaction changes nothing. -/
def Obligations.BusErrorsAreExactly : Prop :=
  ∀ (x : BusTxn) (s : State),
    ((hostAccess x s).2 = .error ↔
      ((x.size = .two ∧ x.offset.toNat % 2 ≠ 0) ∨ (x.size = .four ∧ x.offset.toNat % 4 ≠ 0)
        ∨ (x.offset.toNat ≤ 0xFF ∧ x.size ≠ .four)))
    ∧ ((hostAccess x s).2 = .error → (hostAccess x s).1 = s)

/-- R37 and 20_memory.md R44: a read of a reserved register offset, or an aligned read in a reserved region of the bus
window (between the registers and sample RAM, and above sample RAM), returns 0, and a write there has no effect, busy or
not. -/
def Obligations.ReservedRegistersReadZeroAndIgnoreWrites : Prop :=
  ∀ s : State,
    (∀ n : BitVec 25, 0x44 ≤ n.toNat → n.toNat ≤ 0xFC → n.toNat % 4 = 0 →
      ReadsAs n 0#32 s ∧ ∀ w, writeWord n w s = (s, .okWrite))
    ∧ ∀ x : BusTxn, x.offset.toNat % sizeBytes x.size = 0 →
        ((0x100 ≤ x.offset.toNat ∧ x.offset.toNat ≤ 0xFFFFFF) ∨ 0x1000000 + s.sramBytes ≤ x.offset.toNat) →
      (x.access = .read → hostAccess x s = (s, .okRead 0#32))
      ∧ ∀ w, x.access = .write w → hostAccess x s = (s, .okWrite)

/-- R20 to R36: what a read at each register offset answers, busy or not; what a write to each parameter register stores
while idle, and that it changes nothing else; and that what is written there is read back, the reserved bits as 0. -/
def Obligations.ParameterRegistersReadBack : Prop :=
  ∀ s : State,
    (ReadsAs 0x00#25 0x50490100#32 s
      ∧ ReadsAs 0x04#25 (BitVec.ofNat 32 s.sramBytes) s
      ∧ ReadsAs 0x08#25 (BitVec.ofNat 32 s.ie.toNat) s
      ∧ ReadsAs 0x0C#25 (BitVec.ofNat 32 (s.busy.toNat + 2 * s.done.toNat + 4 * s.degen.toNat + 8 * s.werr.toNat
          + 0x100 * s.err.toNat)) s
      ∧ ReadsAs 0x10#25 s.cmd s ∧ ReadsAs 0x14#25 s.src s ∧ ReadsAs 0x18#25 s.dst s
      ∧ ReadsAs 0x1C#25 (BitVec.ofNat 32 (s.width.toNat + 0x10000 * s.height.toNat)) s
      ∧ ReadsAs 0x20#25 (BitVec.ofNat 32 s.channels.toNat) s
      ∧ ReadsAs 0x24#25 s.opnd0 s ∧ ReadsAs 0x28#25 s.opnd1 s ∧ ReadsAs 0x2C#25 s.opnd2 s
      ∧ ReadsAs 0x30#25 s.gamma s ∧ ReadsAs 0x34#25 s.gainc s
      ∧ ReadsAs 0x38#25 (BitVec.ofNat 32 (s.outMin.toNat + 0x100 * s.outMax.toNat)) s
      ∧ ReadsAs 0x3C#25 (BitVec.ofNat 32 (s.srcMin.toNat + 0x100 * s.srcMax.toNat)) s
      ∧ ReadsAs 0x40#25 (BitVec.ofNat 32 (s.obsMin.toNat + 0x100 * s.obsMax.toNat + 0x10000 * s.obsValid.toNat)) s)
    ∧ ∀ w : Word, s.busy = false →
      (writeWord 0x14#25 w s = ({ s with src := w }, .okWrite)
        ∧ writeWord 0x18#25 w s = ({ s with dst := w }, .okWrite)
        ∧ writeWord 0x1C#25 w s
            = ({ s with width := BitVec.ofNat 16 w.toNat, height := BitVec.ofNat 16 (w.toNat / 0x10000) }, .okWrite)
        ∧ writeWord 0x20#25 w s = ({ s with channels := BitVec.ofNat 4 w.toNat }, .okWrite)
        ∧ writeWord 0x24#25 w s = ({ s with opnd0 := w }, .okWrite)
        ∧ writeWord 0x28#25 w s = ({ s with opnd1 := w }, .okWrite)
        ∧ writeWord 0x2C#25 w s = ({ s with opnd2 := w }, .okWrite)
        ∧ writeWord 0x30#25 w s = ({ s with gamma := w }, .okWrite)
        ∧ writeWord 0x34#25 w s = ({ s with gainc := w }, .okWrite)
        ∧ writeWord 0x38#25 w s
            = ({ s with outMin := BitVec.ofNat 8 w.toNat, outMax := BitVec.ofNat 8 (w.toNat / 0x100) }, .okWrite)
        ∧ writeWord 0x3C#25 w s
            = ({ s with srcMin := BitVec.ofNat 8 w.toNat, srcMax := BitVec.ofNat 8 (w.toNat / 0x100) }, .okWrite))
      ∧ ∀ e ∈ [(0x14#25, 0xFFFFFFFF#32), (0x18#25, 0xFFFFFFFF#32), (0x1C#25, 0xFFFFFFFF#32), (0x20#25, 0xF#32),
          (0x24#25, 0xFFFFFFFF#32), (0x28#25, 0xFFFFFFFF#32), (0x2C#25, 0xFFFFFFFF#32), (0x30#25, 0xFFFFFFFF#32),
          (0x34#25, 0xFFFFFFFF#32), (0x38#25, 0xFFFF#32), (0x3C#25, 0xFFFF#32)],
        ReadsAs e.1 (w &&& e.2) (writeWord e.1 w s).1

/-- R20, R21: a write at one register offset leaves what every other register offset reads, and sample RAM; but for the
soft reset (R24), for STATUS when a command is accepted (R70), and for STATUS when a write is dropped while busy
(R21 (b)). A write to a read-only register has no effect at any time, on WERR neither (R21 (a)). -/
def Obligations.RegisterWritesLeaveOtherRegisters : Prop :=
  ∀ (s : State) (w : Word),
    (∀ n q : BitVec 25, RegisterOffset n → RegisterOffset q → q ≠ n →
      (n = 0x08#25 → w.getLsbD 1 = false) →
      (q = 0x0C#25 → n ≠ 0x10#25 ∧ (s.busy = true → ¬ (0x10 ≤ n.toNat ∧ n.toNat ≤ 0x3C))) →
      (readWord q (writeWord n w s).1).2 = (readWord q s).2 ∧ (writeWord n w s).1.ram = s.ram)
    ∧ ∀ n ∈ [0x00#25, 0x04#25, 0x40#25], writeWord n w s = (s, .okWrite)

/-- R21 (b), R131: while busy a write to CMD or a parameter register changes nothing but WERR, which it sets. -/
def Obligations.BusyDropsRegisterWrites : Prop :=
  ∀ (s : State) (n : BitVec 25) (w : Word), s.busy = true → 0x10 ≤ n.toNat → n.toNat ≤ 0x3C → n.toNat % 4 = 0 →
    hostAccess { offset := n, size := .four, access := .write w } s = ({ s with werr := true }, .okWrite)

/-- R25: a write to STATUS clears DONE by bit 1 and WERR by bit 3, busy or not, and does nothing else. -/
def Obligations.StatusIsWriteOneToClear : Prop :=
  ∀ (s : State) (w : Word),
    hostAccess { offset := 0xC#25, size := .four, access := .write w } s
      = ({ s with done := if w.getLsbD 1 then false else s.done,
                  werr := if w.getLsbD 3 then false else s.werr }, .okWrite)

/-- R24: a write to CTRL with SRST = 0 sets IE to bit 0 of the data and changes nothing else, busy or not. -/
def Obligations.ControlWriteSetsInterruptEnable : Prop :=
  ∀ (s : State) (w : Word), w.getLsbD 1 = false →
    writeWord 0x08#25 w s = ({ s with ie := w.getLsbD 0 }, .okWrite)

/-- R114: irq is DONE and IE at all times, as the host reads them; it goes low by writing 1 to DONE, by acceptance of a
command, by IE = 0 and by either reset. -/
def Obligations.InterruptFollowsDoneAndEnable : Prop :=
  ∀ s : State,
    (∃ status ctrl, ReadsAs 0x0C#25 status s ∧ ReadsAs 0x08#25 ctrl s
      ∧ irq s = (status.getLsbD 1 && ctrl.getLsbD 0))
    ∧ (∀ w, w.getLsbD 1 = true → irq (writeWord 0x0C#25 w s).1 = false)
    ∧ (∀ w, s.busy = false → irq (writeWord 0x10#25 w s).1 = false)
    ∧ (∀ w, w.getLsbD 0 = false ∨ w.getLsbD 1 = true → irq (writeWord 0x08#25 w s).1 = false)
    ∧ ∀ rest, s.agenda = .powerOn :: rest → ∃ t, step s = .next t ∧ irq t = false

/-- R48, R52: an aligned write inside sample RAM while idle stores its bytes, the least significant at the offset
itself, and changes nothing else. -/
def Obligations.RamWriteIsLittleEndian : Prop :=
  ∀ (s : State) (x : BusTxn) (w : Word) (a : Nat), s.busy = false → x.access = .write w →
    x.offset.toNat = 0x1000000 + a → a % sizeBytes x.size = 0 → a + sizeBytes x.size ≤ s.sramBytes →
    ∃ t, hostAccess x s = (t, .okWrite) ∧ t = { s with ram := t.ram }
      ∧ t.ram.topWord = s.ram.topWord ∧ t.ram.draw = s.ram.draw
      ∧ (∀ i, i < sizeBytes x.size → (t.byte (a + i)).toNat = w.toNat / 256 ^ i % 256)
      ∧ ∀ b, ¬ InRange b a (sizeBytes x.size) → t.byte b = s.byte b

/-- R48, R52: an aligned read inside sample RAM while idle returns the little-endian value of its bytes and changes
nothing. -/
def Obligations.RamReadIsLittleEndian : Prop :=
  ∀ (s : State) (x : BusTxn) (a : Nat), s.busy = false → x.access = .read →
    x.offset.toNat = 0x1000000 + a → a % sizeBytes x.size = 0 → a + sizeBytes x.size ≤ s.sramBytes →
    ∃ w, hostAccess x s = (s, .okRead w)
      ∧ w.toNat = ((List.range (sizeBytes x.size)).map fun i => (s.byte (a + i)).toNat * 256 ^ i).sum

/-- R49: while busy a write to sample RAM changes nothing but WERR, which it sets, and a read answers OK with free data
of a fresh draw and leaves every register and every byte as it was. -/
def Obligations.RamWhileBusyIsOpaque : Prop :=
  ∀ (s : State) (x : BusTxn) (a : Nat), s.busy = true → x.offset.toNat = 0x1000000 + a →
    a % sizeBytes x.size = 0 → a < s.sramBytes →
    (∀ w, x.access = .write w → hostAccess x s = ({ s with werr := true }, .okWrite))
    ∧ (x.access = .read →
        ∃ w, hostAccess x s = ({ s with draws := s.draws + 1 }, .okRead w)
          ∧ ∀ i, i < sizeBytes x.size → w.toNat / 256 ^ i % 256 = (Config.freeByte s.draws (a + i)).toNat)

/-- R54: no read has a side effect: a read changes no register, flag or byte. -/
def Obligations.ReadsHaveNoSideEffect : Prop :=
  ∀ (s : State) (x : BusTxn), x.access = .read →
    ∃ d, (hostAccess x s).1 = { s with draws := d } ∧ s.draws ≤ d

/-! ### Whole-machine rules -/

/-- R25, R71, R114: DONE rises only when the engine completes a command, and then BUSY falls in the same step. -/
def Obligations.DoneRisesOnlyAtCompletion : Prop :=
  ∀ s t : State, step s = .next t → s.done = false → t.done = true →
    nextEvent s = .engine ∧ s.busy = true ∧ t.busy = false

/-- R25, R70, R72: BUSY rises only when a write to CMD is accepted, and falls only at completion or reset. -/
def Obligations.BusyFollowsAcceptanceAndCompletion : Prop :=
  ∀ s t : State, step s = .next t →
    (s.busy = false → t.busy = true →
      ∃ w, nextEvent s = .bus { offset := 0x10#25, size := .four, access := .write w } ∧ t.cmd = w)
    ∧ (s.busy = true → t.busy = false →
      (nextEvent s = .engine ∧ t.done = true) ∨ nextEvent s = .powerOn
      ∨ ∃ w, w.getLsbD 1 = true ∧ nextEvent s = .bus { offset := 0x8#25, size := .four, access := .write w })

/-- R36, R98: CSTOBS changes only by an observed-mode CSTR that ends without error, or by reset. -/
def Obligations.CstobsChangesOnlyByObservedStretch : Prop :=
  ∀ s t : State, step s = .next t → regRead .cstobs t ≠ regRead .cstobs s →
    (nextEvent s = .engine ∧ s.busy = true ∧ decode s.cmd = .ok (.cstr false) ∧ t.err = 0#4)
    ∨ nextEvent s = .powerOn
    ∨ ∃ w, w.getLsbD 1 = true ∧ nextEvent s = .bus { offset := 0x8#25, size := .four, access := .write w }

/-- R131: a host that does not write sample RAM, CMD or a parameter register while the engine is busy never causes WERR
to be set. -/
def Obligations.CompliantHostNeverSetsWerr : Prop :=
  ∀ s t : State, s.compliant = true → step s = .next t → s.werr = false → t.werr = false

/-- 00_scope.md R13: sample indices run over `[0, H*W*C)`, each once, and the channel is the index modulo `C`. -/
def Obligations.SampleIndexIsABijection : Prop :=
  ∀ w h c : Nat, 0 < c →
    (∀ r x k, r < h → x < w → k < c → sampleIndex w c r x k < h * w * c ∧ sampleIndex w c r x k % c = k)
    ∧ (∀ n, n < h * w * c → ∃ r x k, r < h ∧ x < w ∧ k < c ∧ sampleIndex w c r x k = n)
    ∧ ∀ r x k r' x' k', x < w → k < c → x' < w → k' < c →
      sampleIndex w c r x k = sampleIndex w c r' x' k' → r = r' ∧ x = x' ∧ k = k'
end

