-- ==== Sys2Proof/Laws/Arith.lean ====
section
/-! SUPPORT. The laws of rounding and clamping, and of the search for a gamma level. -/

namespace Sys2Proof.Machine

/-! ### Clamping -/

theorem clampByte_toNat (x : Int) : ((clampByte x).toNat : Int) = min 255 (max 0 x) := by
  unfold clampByte
  rw [BitVec.toNat_ofInt]
  norm_num
  omega

theorem clampByte_of_range {x : Int} (h0 : 0 ≤ x) (h1 : x ≤ 255) : ((clampByte x).toNat : Int) = x := by
  rw [clampByte_toNat]; omega

theorem clampByte_mono {x y : Int} (h : x ≤ y) : (clampByte x).toNat ≤ (clampByte y).toNat := by
  have hx := clampByte_toNat x
  have hy := clampByte_toNat y
  omega

/-- A value already a sample is not changed by clamping. -/
@[simp] theorem clampByte_byte (v : Byte) : clampByte (v.toNat : Int) = v := by
  have hv := v.isLt
  apply BitVec.eq_of_toNat_eq
  have := clampByte_of_range (x := (v.toNat : Int)) (by omega) (by omega)
  omega

/-! ### Rounding -/

section
variable {K : Type} [Field K] [LinearOrder K] [IsStrictOrderedRing K] [FloorRing K]

omit [IsStrictOrderedRing K] in
theorem rnd_of_nonneg {x : K} (h : 0 ≤ x) : rnd x = ⌊x + 1 / 2⌋ := if_pos h

omit [IsStrictOrderedRing K] in
theorem rnd_of_neg {x : K} (h : x < 0) : rnd x = -⌊-x + 1 / 2⌋ := if_neg (not_le.2 h)

/-- Rounding an integer gives the integer. -/
@[simp] theorem rnd_intCast (n : Int) : rnd (n : K) = n := by
  have half : ∀ m : Int, ⌊(m : K) + 1 / 2⌋ = m := fun m => by
    rw [Int.floor_eq_iff]
    constructor <;> norm_num
  unfold rnd
  split
  · exact half n
  · have := half (-n)
    push_cast at this
    rw [this, neg_neg]

theorem rnd_nonneg {x : K} (h : 0 ≤ x) : 0 ≤ rnd x := by
  rw [rnd_of_nonneg h]
  exact Int.floor_nonneg.2 (by positivity)

theorem rnd_nonpos {x : K} (h : x < 0) : rnd x ≤ 0 := by
  rw [rnd_of_neg h]
  have : 0 ≤ ⌊-x + 1 / 2⌋ := Int.floor_nonneg.2 (by
    have : 0 ≤ -x := by linarith
    positivity)
  omega

/-- Rounding is monotone. -/
theorem rnd_mono {x y : K} (h : x ≤ y) : rnd x ≤ rnd y := by
  rcases le_or_gt 0 x with hx | hx
  · rw [rnd_of_nonneg hx, rnd_of_nonneg (hx.trans h)]
    exact Int.floor_le_floor (by linarith)
  · rcases le_or_gt 0 y with hy | hy
    · exact (rnd_nonpos hx).trans (rnd_nonneg hy)
    · rw [rnd_of_neg hx, rnd_of_neg hy]
      have := Int.floor_le_floor (a := -y + 1 / 2) (b := -x + 1 / 2) (by linarith)
      omega

theorem floor_div_add_half (num den : Int) (hd : 0 < den) :
    ⌊(num : K) / den + 1 / 2⌋ = (2 * num + den) / (2 * den) := by
  have hd' : (0 : K) < den := by exact_mod_cast hd
  have e : (num : K) / den + 1 / 2 = ((2 * num + den : Int) : K) / ((2 * den : Int) : K) := by
    push_cast; field_simp
  rw [e, Int.floor_eq_iff]
  have h2 : (0 : K) < ((2 * den : Int) : K) := by push_cast; linarith
  have hmul := Int.mul_ediv_add_emod (2 * num + den) (2 * den)
  have hlo := Int.emod_nonneg (2 * num + den) (b := 2 * den) (by omega)
  have hhi := Int.emod_lt_of_pos (2 * num + den) (b := 2 * den) (by omega)
  constructor
  · rw [le_div_iff₀ h2]
    have : (2 * num + den) / (2 * den) * (2 * den) ≤ 2 * num + den := by nlinarith
    exact_mod_cast this
  · rw [div_lt_iff₀ h2]
    have : 2 * num + den < ((2 * num + den) / (2 * den) + 1) * (2 * den) := by nlinarith
    exact_mod_cast this

/-- `rndDivPos` is `rnd` of the quotient. -/
theorem rndDivPos_eq_rnd (num den : Int) (hd : 0 < den) : rndDivPos num den = rnd ((num : K) / den) := by
  have hd' : (0 : K) < den := by exact_mod_cast hd
  unfold rndDivPos
  split
  · rename_i h
    have : (0 : K) ≤ (num : K) / den := div_nonneg (by exact_mod_cast h) hd'.le
    rw [rnd_of_nonneg this, floor_div_add_half num den hd]
  · rename_i h
    have : (num : K) / den < 0 := div_neg_of_neg_of_pos (by exact_mod_cast not_le.1 h) hd'
    rw [rnd_of_neg this, ← floor_div_add_half (K := K) (-num) den hd]
    push_cast
    rw [neg_div]

/-- `rndDiv` is `rnd` of the quotient, for a denominator of either sign. -/
theorem rndDiv_eq_rnd (num den : Int) (hd : den ≠ 0) : rndDiv num den = rnd ((num : K) / den) := by
  unfold rndDiv
  split
  · exact rndDivPos_eq_rnd num den ‹_›
  · rw [rndDivPos_eq_rnd (K := K) (-num) (-den) (by omega)]
    push_cast
    rw [neg_div_neg_eq]

end

/-! ### The gamma level -/

/-- The search finds the greatest level reached, for a `reach` that holds of every level below one it holds of. -/
theorem greatestReached_spec (reach : Nat → Bool) (hdown : ∀ a b, 1 ≤ a → a ≤ b → reach b = true → reach a = true)
    (b n : Nat) (hn : n = 0 ∨ reach n = true) :
    let r := greatestReached reach b n
    n ≤ r ∧ r < n + 2 ^ b ∧ (r = 0 ∨ reach r = true) ∧ ∀ x, r < x → x < n + 2 ^ b → reach x = false := by
  induction b generalizing n with
  | zero => simp only [greatestReached]; exact ⟨le_rfl, by omega, hn, fun x hx hx' => by omega⟩
  | succ b ih =>
    have hp : 0 < 2 ^ b := by positivity
    simp only [greatestReached]
    split
    · rename_i h
      have := ih (n + 2 ^ b) (.inr h)
      simp only at this
      refine ⟨by omega, by rw [pow_succ]; omega, this.2.2.1, fun x hx hx' => this.2.2.2 x hx ?_⟩
      rw [pow_succ] at hx'; omega
    · rename_i h
      have := ih n hn
      simp only at this
      refine ⟨this.1, by rw [pow_succ]; omega, this.2.2.1, fun x hx hx' => ?_⟩
      by_cases hlt : x < n + 2 ^ b
      · exact this.2.2.2 x hx hlt
      · by_contra hc
        exact h (hdown (n + 2 ^ b) x (by omega) (by omega) (by simpa using hc))

/-- Level by level the condition only gets harder. -/
theorem gammaReaches_down (g k v a b : Nat) (ha : 1 ≤ a) (hab : a ≤ b) (h : gammaReaches g k v b = true) :
    gammaReaches g k v a = true := by
  unfold gammaReaches at *
  simp only [decide_eq_true_eq] at *
  refine le_trans (Nat.mul_le_mul_right _ (Nat.pow_le_pow_left (Nat.mul_le_mul_right _ (by omega)) _)) h

/-- A brighter sample reaches every level a darker one does. -/
theorem gammaReaches_mono (g k n : Nat) {v v' : Nat} (hv : v ≤ v') (h : gammaReaches g k v n = true) :
    gammaReaches g k v' n = true := by
  unfold gammaReaches at *
  simp only [decide_eq_true_eq] at *
  exact h.trans (Nat.mul_le_mul_left _ (Nat.pow_le_pow_left hv _))

/-- What GAMMA computes for one sample: a level that is reached (or 0), with no level above it reached. -/
theorem gammaSample_spec (g k : Word) (v : Byte) :
    ((gammaSample g k v).toNat = 0 ∨ gammaReaches g.toNat k.toNat v.toNat (gammaSample g k v).toNat = true)
    ∧ ∀ n, (gammaSample g k v).toNat < n → n ≤ 255 → gammaReaches g.toNat k.toNat v.toNat n = false := by
  have h := greatestReached_spec (gammaReaches g.toNat k.toNat v.toNat)
    (fun a b ha hab => gammaReaches_down _ _ _ a b ha hab) 8 0 (.inl rfl)
  simp only at h
  have e : (gammaSample g k v).toNat = greatestReached (gammaReaches g.toNat k.toNat v.toNat) 8 0 := by
    unfold gammaSample
    rw [BitVec.toNat_ofNat]
    exact Nat.mod_eq_of_lt (by omega)
  rw [e]
  exact ⟨h.2.2.1, fun n hn hn' => h.2.2.2 n hn (by omega)⟩

/-- A level between 1 and 255 is reached exactly when the output is at least that level. -/
theorem gammaReaches_iff (g k : Word) (v : Byte) {n : Nat} (h1 : 1 ≤ n) (h2 : n ≤ 255) :
    gammaReaches g.toNat k.toNat v.toNat n = true ↔ n ≤ (gammaSample g k v).toNat := by
  have h := gammaSample_spec g k v
  constructor
  · intro hr
    by_contra hc
    rw [h.2 n (by omega) h2] at hr
    cases hr
  · intro hn
    rcases h.1 with h0 | h0
    · omega
    · exact gammaReaches_down _ _ _ n _ h1 hn h0

/-- The exponents of `gammaReaches`: `γ = p / q` in lowest terms. -/
theorem gamma_exponents (g : Nat) :
    0 < 65536 / Nat.gcd g 65536 ∧ (g / Nat.gcd g 65536) * 65536 = g * (65536 / Nat.gcd g 65536) := by
  have hpos : 0 < Nat.gcd g 65536 := Nat.gcd_pos_of_pos_right _ (by norm_num)
  obtain ⟨a, ha⟩ := Nat.gcd_dvd_left g 65536
  obtain ⟨b, hb⟩ := Nat.gcd_dvd_right g 65536
  generalize Nat.gcd g 65536 = d at *
  have e1 : g / d = a := by rw [ha]; exact Nat.mul_div_cancel_left _ hpos
  have e2 : 65536 / d = b := by rw [hb]; exact Nat.mul_div_cancel_left _ hpos
  rw [e1, e2]
  refine ⟨Nat.pos_of_ne_zero fun h => ?_, ?_⟩
  · rw [h] at hb; omega
  · calc a * 65536 = a * (d * b) := by rw [← hb]
      _ = d * a * b := by ring
      _ = g * b := by rw [← ha]

/-- The integer condition of `gammaReaches` is the real one of 41_gamma.md R87: with `γ = g / 65536` and
`c = k / 65536`, level `n` is reached when `(2n - 1) / 510 <= c * (v / 255)^γ`. -/
theorem gammaReaches_iff_real (g k v n : Nat) (hn : 1 ≤ n) :
    gammaReaches g k v n = true ↔
      (2 * (n : ℝ) - 1) / 510 ≤ (k : ℝ) / 65536 * ((v : ℝ) / 255) ^ ((g : ℝ) / 65536) := by
  obtain ⟨hq, hpq⟩ := gamma_exponents g
  unfold gammaReaches
  simp only [decide_eq_true_eq]
  generalize 65536 / Nat.gcd g 65536 = q at *
  generalize g / Nat.gcd g 65536 = p at *
  have hq' : (q : ℝ) ≠ 0 := by exact_mod_cast hq.ne'
  have hexp : (g : ℝ) / 65536 = (p : ℝ) * (1 / (q : ℝ)) := by
    have : (p : ℝ) * 65536 = g * q := by exact_mod_cast hpq
    field_simp
    linarith
  set x : ℝ := ((v : ℝ) / 255) ^ ((g : ℝ) / 65536) with hx
  have hv0 : (0 : ℝ) ≤ (v : ℝ) / 255 := by positivity
  have hx0 : 0 ≤ x := Real.rpow_nonneg hv0 _
  have hxq : x ^ q = ((v : ℝ) / 255) ^ p := by
    rw [hx, hexp, Real.rpow_mul hv0, Real.rpow_natCast, ← Real.rpow_natCast _ q, ← Real.rpow_mul (by positivity)]
    rw [one_div, inv_mul_cancel₀ hq', Real.rpow_one]
  have hn' : (1 : ℝ) ≤ n := by exact_mod_cast hn
  have hl0 : (0 : ℝ) ≤ (2 * (n : ℝ) - 1) * 65536 := by linarith
  have hr0 : (0 : ℝ) ≤ 510 * (k : ℝ) * x := by positivity
  have key : (2 * (n : ℝ) - 1) / 510 ≤ (k : ℝ) / 65536 * x ↔
      ((2 * (n : ℝ) - 1) * 65536) ^ q ≤ (510 * (k : ℝ) * x) ^ q := by
    rw [pow_le_pow_iff_left₀ hl0 hr0 hq.ne']
    constructor <;> intro h <;> linarith
  rw [key, mul_pow (510 * (k : ℝ)) x, hxq, div_pow, ← mul_div_assoc, le_div_iff₀ (by positivity)]
  have hcast : ((2 * n - 1 : Nat) : ℝ) = 2 * (n : ℝ) - 1 := by
    rw [Nat.cast_sub (by omega)]; push_cast; ring
  rw [← hcast]
  exact_mod_cast Iff.rfl

/-- GAMMA with a large exponent sends every sample below 255 to 0 (41_gamma.md R91: "large γ"): an evaluation aid, for
exponents too large to compute with. -/
theorem gammaReaches_false_of_large (g k v n : Nat) (hv : v ≤ 254) (hk : k < 2 ^ 32) (hn : 1 ≤ n)
    (hg : 4425 * 65536 ≤ g) : gammaReaches g k v n = false := by
  obtain ⟨hq, hpq⟩ := gamma_exponents g
  unfold gammaReaches
  simp only [decide_eq_false_iff_not, not_le]
  generalize 65536 / Nat.gcd g 65536 = q at *
  generalize g / Nat.gcd g 65536 = p at *
  have hp : 4425 * q ≤ p := by
    have : 4425 * 65536 * q ≤ g * q := Nat.mul_le_mul_right _ hg
    omega
  have h177 : 2 * 254 ^ 177 < 255 ^ 177 := by norm_num
  have split (a : Nat) : a ^ 4425 = (a ^ 177) ^ 25 := pow_mul a 177 25
  have hbase : (510 * 65536) * 254 ^ 4425 < 255 ^ 4425 := by
    rw [split, split]
    calc (510 * 65536) * (254 ^ 177) ^ 25 ≤ 2 ^ 25 * (254 ^ 177) ^ 25 := Nat.mul_le_mul_right _ (by norm_num)
      _ = (2 * 254 ^ 177) ^ 25 := (mul_pow _ _ _).symm
      _ < (255 ^ 177) ^ 25 := Nat.pow_lt_pow_left h177 (by norm_num)
  obtain ⟨e, rfl⟩ := Nat.exists_eq_add_of_le hp
  calc (510 * k) ^ q * v ^ (4425 * q + e)
      ≤ (510 * 65536 * 65536) ^ q * 254 ^ (4425 * q + e) := by
        apply Nat.mul_le_mul
        · exact Nat.pow_le_pow_left (by omega) _
        · exact Nat.pow_le_pow_left hv _
    _ = 65536 ^ q * ((510 * 65536 * 254 ^ 4425) ^ q * 254 ^ e) := by
        rw [pow_add, pow_mul, mul_pow (510 * 65536) 65536, mul_pow (510 * 65536)]; ring
    _ < 65536 ^ q * ((255 ^ 4425) ^ q * 255 ^ e) := by
        apply Nat.mul_lt_mul_of_pos_left _ (by positivity)
        apply Nat.mul_lt_mul_of_lt_of_le
        · exact Nat.pow_lt_pow_left hbase hq.ne'
        · exact Nat.pow_le_pow_left (by norm_num) _
        · positivity
    _ ≤ ((2 * n - 1) * 65536) ^ q * 255 ^ (4425 * q + e) := by
        rw [pow_add, pow_mul, ← mul_assoc, ← mul_assoc]
        apply Nat.mul_le_mul_right
        apply Nat.mul_le_mul_right
        exact Nat.pow_le_pow_left (by omega) _

/-! ### Bit planes -/

theorem planeSample_toNat (k : Nat) (v : Byte) : (planeSample k v).toNat = v.toNat / 2 ^ k % 2 * 255 := by
  unfold planeSample
  rw [← BitVec.testBit_toNat, Nat.testBit_eq_decide_div_mod_eq]
  rcases Nat.mod_two_eq_zero_or_one (v.toNat / 2 ^ k) with h | h <;> simp [h]

end Sys2Proof.Machine
end

