-- ==== Sys2Proof/Laws/Memory.lean ====
section
/-! SUPPORT. The laws of sample RAM: reading back a write, the canonical form, and what each of the engine's loops
does, said once. -/

namespace Sys2Proof.Machine

/-! ### One byte -/

@[simp] theorem set_draw (m : Memory) (a : Nat) (v : Byte) : (m.set a v).draw = m.draw := rfl
@[simp] theorem set_topWord (m : Memory) (a : Nat) (v : Byte) : (m.set a v).topWord = m.topWord := rfl
@[simp] theorem set_cells (m : Memory) (a : Nat) (v : Byte) : (m.set a v).cells = storeCell m.cells a v := rfl
@[simp] theorem set_bytes (m : Memory) (a : Nat) (v : Byte) : (m.set a v).bytes = m.bytes := rfl
@[simp] theorem powerUp_cells (m : Memory) (d : Nat) : (m.powerUp d).cells = [] := rfl
@[simp] theorem powerUp_draw (m : Memory) (d : Nat) : (m.powerUp d).draw = d := rfl
@[simp] theorem powerUp_topWord (m : Memory) (d : Nat) : (m.powerUp d).topWord = m.topWord := rfl
@[simp] theorem powerUp_bytes (m : Memory) (d : Nat) : (m.powerUp d).bytes = m.bytes := rfl
@[simp] theorem powerUp_get (m : Memory) (d a : Nat) : (m.powerUp d).get a = Config.freeByte d a := rfl

/-- SRAM_BYTES satisfies the constraint of 00_scope.md R6, for every memory. -/
theorem bytes_legal (m : Memory) : 4 ≤ m.bytes ∧ m.bytes ≤ 2 ^ 24 ∧ m.bytes % 4 = 0 := by
  have := m.topWord.isLt
  unfold Memory.bytes
  omega

theorem bytes_eq_of_topWord {m r : Memory} (h : r.topWord = m.topWord) : r.bytes = m.bytes := by
  simp [Memory.bytes, h]

theorem lookupCell_storeCell (l : List Host.Cell) (a b : Nat) (v : Byte) :
    lookupCell (storeCell l a v) b = if b = a then some v else lookupCell l b := by
  induction l with
  | nil => simp [storeCell, lookupCell, eq_comm]
  | cons c rest ih =>
    obtain ⟨k, w⟩ := c
    unfold storeCell
    split
    · simp only [lookupCell, eq_comm]
    · split
      · subst_vars; simp only [lookupCell]; grind
      · simp only [lookupCell, ih]; grind

/-- Reading after a write: the byte written there, and every other byte as before. -/
theorem get_set (m : Memory) (a b : Nat) (v : Byte) : (m.set a v).get b = if b = a then v else m.get b := by
  unfold Memory.get Memory.set
  rw [lookupCell_storeCell]
  split <;> simp

@[simp] theorem get_set_same (m : Memory) (a : Nat) (v : Byte) : (m.set a v).get a = v := by simp [get_set]

/-- Writes at two offsets commute, so the order of the engine's samples leaves no trace (20_memory.md R58). -/
theorem storeCell_comm (l : List Host.Cell) {a b : Nat} (v w : Byte) (h : a ≠ b) :
    storeCell (storeCell l a v) b w = storeCell (storeCell l b w) a v := by
  induction l with
  | nil => grind [storeCell]
  | cons c l ih => grind [storeCell]

theorem set_comm (m : Memory) {a b : Nat} (v w : Byte) (h : a ≠ b) : (m.set a v).set b w = (m.set b w).set a v := by
  simp only [Memory.set, storeCell_comm m.cells v w h]

theorem get_set_other (m : Memory) {a b : Nat} (v : Byte) (h : b ≠ a) : (m.set a v).get b = m.get b := by
  simp [get_set, h]

/-! ### The canonical form -/

theorem mem_storeCell {l : List Host.Cell} {a : Nat} {v : Byte} {c : Host.Cell} (h : c ∈ storeCell l a v) :
    c = (a, v) ∨ c ∈ l := by
  induction l with
  | nil => simpa [storeCell] using h
  | cons d rest ih =>
    obtain ⟨k, w⟩ := d
    unfold storeCell at h
    split at h
    · simpa using h
    · split at h
      · simp only [List.mem_cons] at h ⊢; tauto
      · simp only [List.mem_cons] at h ⊢
        rcases h with h | h
        · exact .inr (.inl h)
        · rcases ih h with h | h
          · exact .inl h
          · exact .inr (.inr h)

theorem storeCell_pairwise {l : List Host.Cell} (a : Nat) (v : Byte) (h : l.Pairwise (fun c d => c.1 < d.1)) :
    (storeCell l a v).Pairwise (fun c d => c.1 < d.1) := by
  induction l with
  | nil => simp [storeCell]
  | cons d rest ih =>
    obtain ⟨k, w⟩ := d
    rw [List.pairwise_cons] at h
    unfold storeCell
    split
    · rename_i hak
      rw [List.pairwise_cons, List.pairwise_cons]
      refine ⟨fun c hc => ?_, h⟩
      rcases List.mem_cons.1 hc with hc | hc
      · simpa [hc] using hak
      · have := h.1 c hc; simp only at this ⊢; omega
    · split
      · subst_vars; rw [List.pairwise_cons]; exact h
      · rw [List.pairwise_cons]
        refine ⟨fun c hc => ?_, ih h.2⟩
        rcases mem_storeCell hc with hc | hc
        · subst hc; simp only at *; omega
        · exact h.1 c hc

/-- A write inside sample RAM keeps the canonical form. -/
theorem wf_set {m : Memory} (h : m.wf) {a : Nat} (ha : a < m.bytes) (v : Byte) : (m.set a v).wf := by
  refine ⟨storeCell_pairwise a v h.1, fun c hc => ?_⟩
  rcases mem_storeCell hc with hc | hc
  · subst hc; simpa using ha
  · simpa using h.2 c hc

/-- A memory just powered up is in canonical form. -/
theorem wf_powerUp (m : Memory) (d : Nat) : (m.powerUp d).wf := by simp [Memory.wf, Memory.powerUp]

/-! ### What a loop may change -/

/-- `r` is `m` with new values `v a` at the offsets `p`, the same everywhere else. -/
structure Rewritten (m r : Memory) (p : Nat → Prop) (v : Nat → Byte) : Prop where
  topWord : r.topWord = m.topWord
  draw : r.draw = m.draw
  inside : ∀ a, p a → r.get a = v a
  outside : ∀ a, ¬ p a → r.get a = m.get a
  wf : m.wf → r.wf

theorem Rewritten.bytes {m r : Memory} {p : Nat → Prop} {v : Nat → Byte} (h : Rewritten m r p v) :
    r.bytes = m.bytes := bytes_eq_of_topWord h.topWord

theorem Rewritten.refl (m : Memory) (v : Nat → Byte) : Rewritten m m (fun _ => False) v :=
  ⟨rfl, rfl, fun _ h => h.elim, fun _ _ => rfl, id⟩

/-- The same rewriting, described by other words. -/
theorem Rewritten.congr {m r : Memory} {p q : Nat → Prop} {v w : Nat → Byte} (h : Rewritten m r p v)
    (hp : ∀ a, p a ↔ q a) (hv : ∀ a, q a → v a = w a) : Rewritten m r q w :=
  ⟨h.topWord, h.draw, fun a ha => (h.inside a ((hp a).2 ha)).trans (hv a ha),
    fun a ha => h.outside a (mt (hp a).1 ha), h.wf⟩

/-- One more byte inside sample RAM. -/
theorem Rewritten.set {m r : Memory} {p : Nat → Prop} {v : Nat → Byte} (h : Rewritten m r p v) {a : Nat}
    (ha : a < m.bytes) : Rewritten m (r.set a (v a)) (fun b => b = a ∨ p b) v := by
  refine ⟨h.topWord, h.draw, fun b hb => ?_, fun b hb => ?_, fun hw => wf_set (h.wf hw) (by rw [h.bytes]; exact ha) _⟩
  · rw [get_set]
    split
    · subst_vars; rfl
    · exact h.inside b (hb.resolve_left ‹_›)
  · rw [get_set, if_neg fun e => hb (.inl e)]
    exact h.outside b fun e => hb (.inr e)

/-- Two rewritings in turn, of offsets apart. -/
theorem Rewritten.trans {m r q : Memory} {p p' : Nat → Prop} {v : Nat → Byte} (h : Rewritten m r p v)
    (h' : Rewritten r q p' v) (hd : ∀ a, p a → ¬ p' a) : Rewritten m q (fun a => p a ∨ p' a) v := by
  refine ⟨h'.topWord.trans h.topWord, h'.draw.trans h.draw, fun a ha => ?_, fun a ha => ?_, fun w => h'.wf (h.wf w)⟩
  · rcases ha with ha | ha
    · rw [h'.outside a (hd a ha), h.inside a ha]
    · exact h'.inside a ha
  · rw [h'.outside a fun e => ha (.inr e), h.outside a fun e => ha (.inl e)]

/-! ### The engine's accesses -/

theorem read_of_lt {m : Memory} {a : Nat} (h : a < m.bytes) : m.read a = some (m.get a) := if_pos h

theorem write_of_lt {m : Memory} {a : Nat} (h : a < m.bytes) (v : Byte) : m.write a v = some (m.set a v) := if_pos h

theorem read_eq_some {m : Memory} {a : Nat} {v : Byte} (h : m.read a = some v) : a < m.bytes ∧ v = m.get a := by
  unfold Memory.read at h
  split at h
  · exact ⟨‹_›, (Option.some.inj h).symm⟩
  · cases h

theorem write_eq_some {m r : Memory} {a : Nat} {v : Byte} (h : m.write a v = some r) :
    a < m.bytes ∧ r = m.set a v := by
  unfold Memory.write at h
  split at h
  · exact ⟨‹_›, (Option.some.inj h).symm⟩
  · cases h

/-! ### The loops -/

/-- `mapSamples` inside sample RAM, over ranges apart: every byte of the destination takes its value from the source. -/
theorem mapSamples_spec (src dst n : Nat) (g : Nat → Byte → Byte) (m : Memory) (hs : src + n ≤ m.bytes)
    (hd : dst + n ≤ m.bytes) (hsep : src + n ≤ dst ∨ dst + n ≤ src) :
    ∃ r, mapSamples src dst n g m = some r
      ∧ Rewritten m r (fun a => dst ≤ a ∧ a < dst + n) (fun a => g (a - dst) (m.get (src + (a - dst)))) := by
  unfold mapSamples
  suffices h : ∀ k, k ≤ n → ∃ r, forRange k (fun i m => (m.read (src + i)).bind fun v => m.write (dst + i) (g i v)) m
      = some r ∧ Rewritten m r (fun a => dst ≤ a ∧ a < dst + k) (fun a => g (a - dst) (m.get (src + (a - dst)))) from
    h n le_rfl
  intro k hk
  induction k with
  | zero => exact ⟨m, rfl, (Rewritten.refl m _).congr (fun a => ⟨False.elim, fun h => by omega⟩) fun _ _ => rfl⟩
  | succ k ih =>
    obtain ⟨r, hr, hw⟩ := ih (by omega)
    have hb := hw.bytes
    have hsrc : r.get (src + k) = m.get (src + k) := hw.outside _ (by omega)
    refine ⟨r.set (dst + k) (g k (m.get (src + k))), ?_, ?_⟩
    · simp only [forRange, hr, Option.bind_some]
      rw [read_of_lt (by omega), Option.bind_some, write_of_lt (by omega), hsrc]
    · have := hw.set (a := dst + k) (by omega)
      simp only [Nat.add_sub_cancel_left] at this
      exact this.congr (fun a => by omega) fun _ _ => rfl

/-- `updateSamples` inside sample RAM: every sample with `p` is replaced by `g` of itself. -/
theorem updateSamples_spec (src n : Nat) (p : Nat → Bool) (g : Byte → Byte) (m : Memory) (hs : src + n ≤ m.bytes) :
    ∃ r, updateSamples src n p g m = some r
      ∧ Rewritten m r (fun a => src ≤ a ∧ a < src + n ∧ p (a - src) = true) (fun a => g (m.get a)) := by
  unfold updateSamples
  suffices h : ∀ k, k ≤ n → ∃ r, forRange k
      (fun i m => if p i then (m.read (src + i)).bind fun v => m.write (src + i) (g v) else some m) m = some r
      ∧ Rewritten m r (fun a => src ≤ a ∧ a < src + k ∧ p (a - src) = true) (fun a => g (m.get a)) from h n le_rfl
  intro k hk
  induction k with
  | zero => exact ⟨m, rfl, (Rewritten.refl m _).congr (fun a => ⟨False.elim, fun h => by omega⟩) fun _ _ => rfl⟩
  | succ k ih =>
    obtain ⟨r, hr, hw⟩ := ih (by omega)
    have hb := hw.bytes
    have hsrc : r.get (src + k) = m.get (src + k) := hw.outside _ (by omega)
    simp only [forRange, hr, Option.bind_some]
    split
    · rename_i hp
      refine ⟨r.set (src + k) (g (m.get (src + k))), ?_, ?_⟩
      · rw [read_of_lt (by omega), Option.bind_some, write_of_lt (by omega), hsrc]
      · refine (hw.set (a := src + k) (by omega)).congr (fun a => ?_) fun _ _ => rfl
        constructor
        · rintro (rfl | h)
          · simp [hp]
          · exact ⟨h.1, by omega, h.2.2⟩
        · rintro ⟨h1, h2, h3⟩
          by_cases h : a = src + k
          · exact .inl h
          · exact .inr ⟨h1, by omega, h3⟩
    · rename_i hp
      refine ⟨r, rfl, hw.congr (fun a => ?_) fun _ _ => rfl⟩
      constructor
      · rintro ⟨h1, h2, h3⟩; exact ⟨h1, by omega, h3⟩
      · rintro ⟨h1, h2, h3⟩
        refine ⟨h1, ?_, h3⟩
        by_contra h
        have : a - src = k := by omega
        rw [this] at h3
        exact hp h3

/-- `fillSamples` inside sample RAM: every byte of the destination becomes `v`. -/
theorem fillSamples_spec (dst n : Nat) (v : Byte) (m : Memory) (hd : dst + n ≤ m.bytes) :
    ∃ r, fillSamples dst n v m = some r ∧ Rewritten m r (fun a => dst ≤ a ∧ a < dst + n) (fun _ => v) := by
  unfold fillSamples
  induction n with
  | zero => exact ⟨m, rfl, (Rewritten.refl m _).congr (fun a => ⟨False.elim, fun h => by omega⟩) fun _ _ => rfl⟩
  | succ k ih =>
    obtain ⟨r, hr, hw⟩ := ih (by omega)
    have hb := hw.bytes
    refine ⟨r.set (dst + k) v, ?_, (hw.set (a := dst + k) (by omega)).congr (fun a => by omega) fun _ _ => rfl⟩
    simp only [forRange, hr, Option.bind_some]
    rw [write_of_lt (by omega)]

/-- `sampleBounds` over a range inside sample RAM that is not empty: bounds that are samples and bound every sample. -/
theorem sampleBounds_spec (src : Nat) (m : Memory) (n : Nat) (hn : 0 < n) (hs : src + n ≤ m.bytes) :
    ∃ lo hi, sampleBounds src m n = some (lo, hi)
      ∧ (∃ i, i < n ∧ (m.get (src + i)).toNat = lo) ∧ (∃ i, i < n ∧ (m.get (src + i)).toNat = hi)
      ∧ ∀ i, i < n → lo ≤ (m.get (src + i)).toNat ∧ (m.get (src + i)).toNat ≤ hi := by
  induction n with
  | zero => omega
  | succ k ih =>
    unfold sampleBounds
    rcases Nat.eq_zero_or_pos k with rfl | hk
    · have hlt := (m.get (src + 0)).isLt
      refine ⟨(m.get src).toNat, (m.get src).toNat, ?_, ⟨0, by simp⟩, ⟨0, by simp⟩, fun i hi => ?_⟩
      · rw [read_of_lt (by omega)]
        simp only [sampleBounds, Option.bind_some, Nat.add_zero] at *
        congr 2; all_goals omega
      · obtain rfl : i = 0 := by omega
        simp
    · obtain ⟨lo, hi, h, ⟨i, hi1, hi2⟩, ⟨j, hj1, hj2⟩, hall⟩ := ih hk (by omega)
      rw [h, Option.bind_some, read_of_lt (by omega), Option.bind_some]
      refine ⟨_, _, rfl, ?_, ?_, fun x hx => ?_⟩
      · rcases Nat.le_total lo (m.get (src + k)).toNat with hl | hl
        · exact ⟨i, by omega, by simp [hi2, hl]⟩
        · exact ⟨k, by omega, by simp [hl]⟩
      · rcases Nat.le_total hi (m.get (src + k)).toNat with hl | hl
        · exact ⟨k, by omega, by simp [hl]⟩
        · exact ⟨j, by omega, by simp [hj2, hl]⟩
      · by_cases hxk : x = k
        · subst hxk; simp
        · have := hall x (by omega)
          simp only
          omega

/-- `scatterFree` at offsets inside sample RAM: the free bytes there, every other byte as before. -/
theorem scatterFree_spec (d : Nat) (addrs : List Nat) (m : Memory) (h : ∀ a, a ∈ addrs → a < m.bytes) :
    Rewritten m (scatterFree d addrs m) (fun a => a ∈ addrs) (fun a => Config.freeByte d a) := by
  unfold scatterFree
  induction addrs generalizing m with
  | nil => exact (Rewritten.refl m _).congr (fun a => by simp) fun _ _ => rfl
  | cons b rest ih =>
    have hb : b < m.bytes := h b (by simp)
    have h1 := ih (m.set b (Config.freeByte d b)) fun a ha => by simpa using h a (by simp [ha])
    refine ⟨h1.topWord, h1.draw, fun a ha => ?_, fun a ha => ?_, fun w => h1.wf (wf_set w hb _)⟩
    · by_cases hr : a ∈ rest
      · exact h1.inside a hr
      · obtain rfl : a = b := (List.mem_cons.1 ha).resolve_right hr
        rw [List.foldl_cons, h1.outside a hr, get_set_same]
    · rw [List.foldl_cons, h1.outside a fun e => ha (by simp [e]), get_set_other _ _ fun e => ha (by simp [e])]

/-! ### The host's accesses -/

@[simp] theorem writeLE_topWord (m : Memory) (a : Nat) (size : AccessSize) (w : Word) :
    (m.writeLE a size w).topWord = m.topWord := by cases size <;> rfl

@[simp] theorem writeLE_draw (m : Memory) (a : Nat) (size : AccessSize) (w : Word) :
    (m.writeLE a size w).draw = m.draw := by cases size <;> rfl

/-- A little-endian write: byte `i` of the value at offset `a + i`, every other byte as before. -/
theorem get_writeLE (m : Memory) (a b : Nat) (size : AccessSize) (w : Word) :
    (m.writeLE a size w).get b = if a ≤ b ∧ b < a + sizeBytes size then byteOf w (b - a) else m.get b := by
  cases size <;> simp only [Memory.writeLE, get_set, sizeBytes]
  · grind
  · grind
  · have h : a ≤ b → b < a + 4 → b = a ∨ b = a + 1 ∨ b = a + 2 ∨ b = a + 3 := by omega
    grind

/-- A write inside sample RAM keeps the canonical form. -/
theorem wf_writeLE {m : Memory} (h : m.wf) {a : Nat} (size : AccessSize) (w : Word)
    (ha : a + sizeBytes size ≤ m.bytes) : (m.writeLE a size w).wf := by
  cases size <;> simp only [sizeBytes] at ha <;> simp only [Memory.writeLE]
  · exact wf_set h (by omega) _
  · exact wf_set (wf_set h (by omega) _) (by simp only [set_bytes]; omega) _
  · exact wf_set (wf_set (wf_set (wf_set h (by omega) _) (by simp only [set_bytes]; omega) _)
      (by simp only [set_bytes]; omega) _) (by simp only [set_bytes]; omega) _

end Sys2Proof.Machine
end

