-- ==== Sys2Proof/Laws/State.lean ====
section
/-! SUPPORT. The small lemmas of the state: one for each field and each update, so that no proof unfolds a record
update. -/

namespace Sys2Proof.Machine

/-- Raising an error is completing with its code. -/
@[simp] theorem raiseError_eq_complete (e : ErrCode) (s : State) : raiseError e s = complete (some e) s := rfl

@[simp] theorem complete_ie (e : Option ErrCode) (s : State) : (complete e s).ie = s.ie := rfl
@[simp] theorem complete_busy (e : Option ErrCode) (s : State) : (complete e s).busy = false := rfl
@[simp] theorem complete_done (e : Option ErrCode) (s : State) : (complete e s).done = true := rfl
@[simp] theorem complete_degen (e : Option ErrCode) (s : State) : (complete e s).degen = s.degen := rfl
@[simp] theorem complete_werr (e : Option ErrCode) (s : State) : (complete e s).werr = s.werr := rfl
@[simp] theorem complete_err (e : Option ErrCode) (s : State) : (complete e s).err = errBits e := rfl
@[simp] theorem complete_cmd (e : Option ErrCode) (s : State) : (complete e s).cmd = s.cmd := rfl
@[simp] theorem complete_src (e : Option ErrCode) (s : State) : (complete e s).src = s.src := rfl
@[simp] theorem complete_dst (e : Option ErrCode) (s : State) : (complete e s).dst = s.dst := rfl
@[simp] theorem complete_width (e : Option ErrCode) (s : State) : (complete e s).width = s.width := rfl
@[simp] theorem complete_height (e : Option ErrCode) (s : State) : (complete e s).height = s.height := rfl
@[simp] theorem complete_channels (e : Option ErrCode) (s : State) : (complete e s).channels = s.channels := rfl
@[simp] theorem complete_opnd0 (e : Option ErrCode) (s : State) : (complete e s).opnd0 = s.opnd0 := rfl
@[simp] theorem complete_opnd1 (e : Option ErrCode) (s : State) : (complete e s).opnd1 = s.opnd1 := rfl
@[simp] theorem complete_opnd2 (e : Option ErrCode) (s : State) : (complete e s).opnd2 = s.opnd2 := rfl
@[simp] theorem complete_gamma (e : Option ErrCode) (s : State) : (complete e s).gamma = s.gamma := rfl
@[simp] theorem complete_gainc (e : Option ErrCode) (s : State) : (complete e s).gainc = s.gainc := rfl
@[simp] theorem complete_outMin (e : Option ErrCode) (s : State) : (complete e s).outMin = s.outMin := rfl
@[simp] theorem complete_outMax (e : Option ErrCode) (s : State) : (complete e s).outMax = s.outMax := rfl
@[simp] theorem complete_srcMin (e : Option ErrCode) (s : State) : (complete e s).srcMin = s.srcMin := rfl
@[simp] theorem complete_srcMax (e : Option ErrCode) (s : State) : (complete e s).srcMax = s.srcMax := rfl
@[simp] theorem complete_obsMin (e : Option ErrCode) (s : State) : (complete e s).obsMin = s.obsMin := rfl
@[simp] theorem complete_obsMax (e : Option ErrCode) (s : State) : (complete e s).obsMax = s.obsMax := rfl
@[simp] theorem complete_obsValid (e : Option ErrCode) (s : State) : (complete e s).obsValid = s.obsValid := rfl
@[simp] theorem complete_ram (e : Option ErrCode) (s : State) : (complete e s).ram = s.ram := rfl
@[simp] theorem complete_draws (e : Option ErrCode) (s : State) : (complete e s).draws = s.draws := rfl
@[simp] theorem complete_agenda (e : Option ErrCode) (s : State) : (complete e s).agenda = s.agenda := rfl
@[simp] theorem complete_responses (e : Option ErrCode) (s : State) : (complete e s).responses = s.responses := rfl

@[simp] theorem accept_ie (w : Word) (s : State) : (accept w s).ie = s.ie := rfl
@[simp] theorem accept_busy (w : Word) (s : State) : (accept w s).busy = true := rfl
@[simp] theorem accept_done (w : Word) (s : State) : (accept w s).done = false := rfl
@[simp] theorem accept_degen (w : Word) (s : State) : (accept w s).degen = false := rfl
@[simp] theorem accept_werr (w : Word) (s : State) : (accept w s).werr = s.werr := rfl
@[simp] theorem accept_err (w : Word) (s : State) : (accept w s).err = 0#4 := rfl
@[simp] theorem accept_cmd (w : Word) (s : State) : (accept w s).cmd = w := rfl
@[simp] theorem accept_src (w : Word) (s : State) : (accept w s).src = s.src := rfl
@[simp] theorem accept_dst (w : Word) (s : State) : (accept w s).dst = s.dst := rfl
@[simp] theorem accept_width (w : Word) (s : State) : (accept w s).width = s.width := rfl
@[simp] theorem accept_height (w : Word) (s : State) : (accept w s).height = s.height := rfl
@[simp] theorem accept_channels (w : Word) (s : State) : (accept w s).channels = s.channels := rfl
@[simp] theorem accept_opnd0 (w : Word) (s : State) : (accept w s).opnd0 = s.opnd0 := rfl
@[simp] theorem accept_opnd1 (w : Word) (s : State) : (accept w s).opnd1 = s.opnd1 := rfl
@[simp] theorem accept_opnd2 (w : Word) (s : State) : (accept w s).opnd2 = s.opnd2 := rfl
@[simp] theorem accept_gamma (w : Word) (s : State) : (accept w s).gamma = s.gamma := rfl
@[simp] theorem accept_gainc (w : Word) (s : State) : (accept w s).gainc = s.gainc := rfl
@[simp] theorem accept_outMin (w : Word) (s : State) : (accept w s).outMin = s.outMin := rfl
@[simp] theorem accept_outMax (w : Word) (s : State) : (accept w s).outMax = s.outMax := rfl
@[simp] theorem accept_srcMin (w : Word) (s : State) : (accept w s).srcMin = s.srcMin := rfl
@[simp] theorem accept_srcMax (w : Word) (s : State) : (accept w s).srcMax = s.srcMax := rfl
@[simp] theorem accept_obsMin (w : Word) (s : State) : (accept w s).obsMin = s.obsMin := rfl
@[simp] theorem accept_obsMax (w : Word) (s : State) : (accept w s).obsMax = s.obsMax := rfl
@[simp] theorem accept_obsValid (w : Word) (s : State) : (accept w s).obsValid = s.obsValid := rfl
@[simp] theorem accept_ram (w : Word) (s : State) : (accept w s).ram = s.ram := rfl
@[simp] theorem accept_draws (w : Word) (s : State) : (accept w s).draws = s.draws := rfl
@[simp] theorem accept_agenda (w : Word) (s : State) : (accept w s).agenda = s.agenda := rfl
@[simp] theorem accept_responses (w : Word) (s : State) : (accept w s).responses = s.responses := rfl

@[simp] theorem clearStatus_ie (w : Word) (s : State) : (clearStatus w s).ie = s.ie := rfl
@[simp] theorem clearStatus_busy (w : Word) (s : State) : (clearStatus w s).busy = s.busy := rfl
@[simp] theorem clearStatus_done (w : Word) (s : State) : (clearStatus w s).done = (s.done && !w.getLsbD 1) := rfl
@[simp] theorem clearStatus_degen (w : Word) (s : State) : (clearStatus w s).degen = s.degen := rfl
@[simp] theorem clearStatus_werr (w : Word) (s : State) : (clearStatus w s).werr = (s.werr && !w.getLsbD 3) := rfl
@[simp] theorem clearStatus_err (w : Word) (s : State) : (clearStatus w s).err = s.err := rfl
@[simp] theorem clearStatus_cmd (w : Word) (s : State) : (clearStatus w s).cmd = s.cmd := rfl
@[simp] theorem clearStatus_src (w : Word) (s : State) : (clearStatus w s).src = s.src := rfl
@[simp] theorem clearStatus_dst (w : Word) (s : State) : (clearStatus w s).dst = s.dst := rfl
@[simp] theorem clearStatus_width (w : Word) (s : State) : (clearStatus w s).width = s.width := rfl
@[simp] theorem clearStatus_height (w : Word) (s : State) : (clearStatus w s).height = s.height := rfl
@[simp] theorem clearStatus_channels (w : Word) (s : State) : (clearStatus w s).channels = s.channels := rfl
@[simp] theorem clearStatus_opnd0 (w : Word) (s : State) : (clearStatus w s).opnd0 = s.opnd0 := rfl
@[simp] theorem clearStatus_opnd1 (w : Word) (s : State) : (clearStatus w s).opnd1 = s.opnd1 := rfl
@[simp] theorem clearStatus_opnd2 (w : Word) (s : State) : (clearStatus w s).opnd2 = s.opnd2 := rfl
@[simp] theorem clearStatus_gamma (w : Word) (s : State) : (clearStatus w s).gamma = s.gamma := rfl
@[simp] theorem clearStatus_gainc (w : Word) (s : State) : (clearStatus w s).gainc = s.gainc := rfl
@[simp] theorem clearStatus_outMin (w : Word) (s : State) : (clearStatus w s).outMin = s.outMin := rfl
@[simp] theorem clearStatus_outMax (w : Word) (s : State) : (clearStatus w s).outMax = s.outMax := rfl
@[simp] theorem clearStatus_srcMin (w : Word) (s : State) : (clearStatus w s).srcMin = s.srcMin := rfl
@[simp] theorem clearStatus_srcMax (w : Word) (s : State) : (clearStatus w s).srcMax = s.srcMax := rfl
@[simp] theorem clearStatus_obsMin (w : Word) (s : State) : (clearStatus w s).obsMin = s.obsMin := rfl
@[simp] theorem clearStatus_obsMax (w : Word) (s : State) : (clearStatus w s).obsMax = s.obsMax := rfl
@[simp] theorem clearStatus_obsValid (w : Word) (s : State) : (clearStatus w s).obsValid = s.obsValid := rfl
@[simp] theorem clearStatus_ram (w : Word) (s : State) : (clearStatus w s).ram = s.ram := rfl
@[simp] theorem clearStatus_draws (w : Word) (s : State) : (clearStatus w s).draws = s.draws := rfl
@[simp] theorem clearStatus_agenda (w : Word) (s : State) : (clearStatus w s).agenda = s.agenda := rfl
@[simp] theorem clearStatus_responses (w : Word) (s : State) : (clearStatus w s).responses = s.responses := rfl

@[simp] theorem dropWrite_ie (s : State) : (dropWrite s).ie = s.ie := rfl
@[simp] theorem dropWrite_busy (s : State) : (dropWrite s).busy = s.busy := rfl
@[simp] theorem dropWrite_done (s : State) : (dropWrite s).done = s.done := rfl
@[simp] theorem dropWrite_degen (s : State) : (dropWrite s).degen = s.degen := rfl
@[simp] theorem dropWrite_werr (s : State) : (dropWrite s).werr = true := rfl
@[simp] theorem dropWrite_err (s : State) : (dropWrite s).err = s.err := rfl
@[simp] theorem dropWrite_cmd (s : State) : (dropWrite s).cmd = s.cmd := rfl
@[simp] theorem dropWrite_src (s : State) : (dropWrite s).src = s.src := rfl
@[simp] theorem dropWrite_dst (s : State) : (dropWrite s).dst = s.dst := rfl
@[simp] theorem dropWrite_width (s : State) : (dropWrite s).width = s.width := rfl
@[simp] theorem dropWrite_height (s : State) : (dropWrite s).height = s.height := rfl
@[simp] theorem dropWrite_channels (s : State) : (dropWrite s).channels = s.channels := rfl
@[simp] theorem dropWrite_opnd0 (s : State) : (dropWrite s).opnd0 = s.opnd0 := rfl
@[simp] theorem dropWrite_opnd1 (s : State) : (dropWrite s).opnd1 = s.opnd1 := rfl
@[simp] theorem dropWrite_opnd2 (s : State) : (dropWrite s).opnd2 = s.opnd2 := rfl
@[simp] theorem dropWrite_gamma (s : State) : (dropWrite s).gamma = s.gamma := rfl
@[simp] theorem dropWrite_gainc (s : State) : (dropWrite s).gainc = s.gainc := rfl
@[simp] theorem dropWrite_outMin (s : State) : (dropWrite s).outMin = s.outMin := rfl
@[simp] theorem dropWrite_outMax (s : State) : (dropWrite s).outMax = s.outMax := rfl
@[simp] theorem dropWrite_srcMin (s : State) : (dropWrite s).srcMin = s.srcMin := rfl
@[simp] theorem dropWrite_srcMax (s : State) : (dropWrite s).srcMax = s.srcMax := rfl
@[simp] theorem dropWrite_obsMin (s : State) : (dropWrite s).obsMin = s.obsMin := rfl
@[simp] theorem dropWrite_obsMax (s : State) : (dropWrite s).obsMax = s.obsMax := rfl
@[simp] theorem dropWrite_obsValid (s : State) : (dropWrite s).obsValid = s.obsValid := rfl
@[simp] theorem dropWrite_ram (s : State) : (dropWrite s).ram = s.ram := rfl
@[simp] theorem dropWrite_draws (s : State) : (dropWrite s).draws = s.draws := rfl
@[simp] theorem dropWrite_agenda (s : State) : (dropWrite s).agenda = s.agenda := rfl
@[simp] theorem dropWrite_responses (s : State) : (dropWrite s).responses = s.responses := rfl

@[simp] theorem popEvent_ie (s : State) : (popEvent s).ie = s.ie := rfl
@[simp] theorem popEvent_busy (s : State) : (popEvent s).busy = s.busy := rfl
@[simp] theorem popEvent_done (s : State) : (popEvent s).done = s.done := rfl
@[simp] theorem popEvent_degen (s : State) : (popEvent s).degen = s.degen := rfl
@[simp] theorem popEvent_werr (s : State) : (popEvent s).werr = s.werr := rfl
@[simp] theorem popEvent_err (s : State) : (popEvent s).err = s.err := rfl
@[simp] theorem popEvent_cmd (s : State) : (popEvent s).cmd = s.cmd := rfl
@[simp] theorem popEvent_src (s : State) : (popEvent s).src = s.src := rfl
@[simp] theorem popEvent_dst (s : State) : (popEvent s).dst = s.dst := rfl
@[simp] theorem popEvent_width (s : State) : (popEvent s).width = s.width := rfl
@[simp] theorem popEvent_height (s : State) : (popEvent s).height = s.height := rfl
@[simp] theorem popEvent_channels (s : State) : (popEvent s).channels = s.channels := rfl
@[simp] theorem popEvent_opnd0 (s : State) : (popEvent s).opnd0 = s.opnd0 := rfl
@[simp] theorem popEvent_opnd1 (s : State) : (popEvent s).opnd1 = s.opnd1 := rfl
@[simp] theorem popEvent_opnd2 (s : State) : (popEvent s).opnd2 = s.opnd2 := rfl
@[simp] theorem popEvent_gamma (s : State) : (popEvent s).gamma = s.gamma := rfl
@[simp] theorem popEvent_gainc (s : State) : (popEvent s).gainc = s.gainc := rfl
@[simp] theorem popEvent_outMin (s : State) : (popEvent s).outMin = s.outMin := rfl
@[simp] theorem popEvent_outMax (s : State) : (popEvent s).outMax = s.outMax := rfl
@[simp] theorem popEvent_srcMin (s : State) : (popEvent s).srcMin = s.srcMin := rfl
@[simp] theorem popEvent_srcMax (s : State) : (popEvent s).srcMax = s.srcMax := rfl
@[simp] theorem popEvent_obsMin (s : State) : (popEvent s).obsMin = s.obsMin := rfl
@[simp] theorem popEvent_obsMax (s : State) : (popEvent s).obsMax = s.obsMax := rfl
@[simp] theorem popEvent_obsValid (s : State) : (popEvent s).obsValid = s.obsValid := rfl
@[simp] theorem popEvent_ram (s : State) : (popEvent s).ram = s.ram := rfl
@[simp] theorem popEvent_draws (s : State) : (popEvent s).draws = s.draws := rfl
@[simp] theorem popEvent_agenda (s : State) : (popEvent s).agenda = s.agenda.tail := rfl
@[simp] theorem popEvent_responses (s : State) : (popEvent s).responses = s.responses := rfl

@[simp] theorem placeCommand_ie (w : Word) (s : State) : (placeCommand w s).ie = s.ie := rfl
@[simp] theorem placeCommand_busy (w : Word) (s : State) : (placeCommand w s).busy = true := rfl
@[simp] theorem placeCommand_done (w : Word) (s : State) : (placeCommand w s).done = false := rfl
@[simp] theorem placeCommand_degen (w : Word) (s : State) : (placeCommand w s).degen = false := rfl
@[simp] theorem placeCommand_werr (w : Word) (s : State) : (placeCommand w s).werr = s.werr := rfl
@[simp] theorem placeCommand_err (w : Word) (s : State) : (placeCommand w s).err = 0#4 := rfl
@[simp] theorem placeCommand_cmd (w : Word) (s : State) : (placeCommand w s).cmd = w := rfl
@[simp] theorem placeCommand_src (w : Word) (s : State) : (placeCommand w s).src = s.src := rfl
@[simp] theorem placeCommand_dst (w : Word) (s : State) : (placeCommand w s).dst = s.dst := rfl
@[simp] theorem placeCommand_width (w : Word) (s : State) : (placeCommand w s).width = s.width := rfl
@[simp] theorem placeCommand_height (w : Word) (s : State) : (placeCommand w s).height = s.height := rfl
@[simp] theorem placeCommand_channels (w : Word) (s : State) : (placeCommand w s).channels = s.channels := rfl
@[simp] theorem placeCommand_opnd0 (w : Word) (s : State) : (placeCommand w s).opnd0 = s.opnd0 := rfl
@[simp] theorem placeCommand_opnd1 (w : Word) (s : State) : (placeCommand w s).opnd1 = s.opnd1 := rfl
@[simp] theorem placeCommand_opnd2 (w : Word) (s : State) : (placeCommand w s).opnd2 = s.opnd2 := rfl
@[simp] theorem placeCommand_gamma (w : Word) (s : State) : (placeCommand w s).gamma = s.gamma := rfl
@[simp] theorem placeCommand_gainc (w : Word) (s : State) : (placeCommand w s).gainc = s.gainc := rfl
@[simp] theorem placeCommand_outMin (w : Word) (s : State) : (placeCommand w s).outMin = s.outMin := rfl
@[simp] theorem placeCommand_outMax (w : Word) (s : State) : (placeCommand w s).outMax = s.outMax := rfl
@[simp] theorem placeCommand_srcMin (w : Word) (s : State) : (placeCommand w s).srcMin = s.srcMin := rfl
@[simp] theorem placeCommand_srcMax (w : Word) (s : State) : (placeCommand w s).srcMax = s.srcMax := rfl
@[simp] theorem placeCommand_obsMin (w : Word) (s : State) : (placeCommand w s).obsMin = s.obsMin := rfl
@[simp] theorem placeCommand_obsMax (w : Word) (s : State) : (placeCommand w s).obsMax = s.obsMax := rfl
@[simp] theorem placeCommand_obsValid (w : Word) (s : State) : (placeCommand w s).obsValid = s.obsValid := rfl
@[simp] theorem placeCommand_ram (w : Word) (s : State) : (placeCommand w s).ram = s.ram := rfl
@[simp] theorem placeCommand_draws (w : Word) (s : State) : (placeCommand w s).draws = s.draws := rfl
@[simp] theorem placeCommand_agenda (w : Word) (s : State) : (placeCommand w s).agenda = .engine :: s.agenda := rfl
@[simp] theorem placeCommand_responses (w : Word) (s : State) : (placeCommand w s).responses = s.responses := rfl

@[simp] theorem stretchFlags_ie (expl : Bool) (b : Nat × Nat) (s : State) : (stretchFlags expl b s).ie = s.ie := rfl
@[simp] theorem stretchFlags_busy (expl : Bool) (b : Nat × Nat) (s : State) : (stretchFlags expl b s).busy = s.busy := rfl
@[simp] theorem stretchFlags_done (expl : Bool) (b : Nat × Nat) (s : State) : (stretchFlags expl b s).done = s.done := rfl
@[simp] theorem stretchFlags_degen (expl : Bool) (b : Nat × Nat) (s : State) : (stretchFlags expl b s).degen = (s.degen || b.1 == b.2) := rfl
@[simp] theorem stretchFlags_werr (expl : Bool) (b : Nat × Nat) (s : State) : (stretchFlags expl b s).werr = s.werr := rfl
@[simp] theorem stretchFlags_err (expl : Bool) (b : Nat × Nat) (s : State) : (stretchFlags expl b s).err = s.err := rfl
@[simp] theorem stretchFlags_cmd (expl : Bool) (b : Nat × Nat) (s : State) : (stretchFlags expl b s).cmd = s.cmd := rfl
@[simp] theorem stretchFlags_src (expl : Bool) (b : Nat × Nat) (s : State) : (stretchFlags expl b s).src = s.src := rfl
@[simp] theorem stretchFlags_dst (expl : Bool) (b : Nat × Nat) (s : State) : (stretchFlags expl b s).dst = s.dst := rfl
@[simp] theorem stretchFlags_width (expl : Bool) (b : Nat × Nat) (s : State) : (stretchFlags expl b s).width = s.width := rfl
@[simp] theorem stretchFlags_height (expl : Bool) (b : Nat × Nat) (s : State) : (stretchFlags expl b s).height = s.height := rfl
@[simp] theorem stretchFlags_channels (expl : Bool) (b : Nat × Nat) (s : State) : (stretchFlags expl b s).channels = s.channels := rfl
@[simp] theorem stretchFlags_opnd0 (expl : Bool) (b : Nat × Nat) (s : State) : (stretchFlags expl b s).opnd0 = s.opnd0 := rfl
@[simp] theorem stretchFlags_opnd1 (expl : Bool) (b : Nat × Nat) (s : State) : (stretchFlags expl b s).opnd1 = s.opnd1 := rfl
@[simp] theorem stretchFlags_opnd2 (expl : Bool) (b : Nat × Nat) (s : State) : (stretchFlags expl b s).opnd2 = s.opnd2 := rfl
@[simp] theorem stretchFlags_gamma (expl : Bool) (b : Nat × Nat) (s : State) : (stretchFlags expl b s).gamma = s.gamma := rfl
@[simp] theorem stretchFlags_gainc (expl : Bool) (b : Nat × Nat) (s : State) : (stretchFlags expl b s).gainc = s.gainc := rfl
@[simp] theorem stretchFlags_outMin (expl : Bool) (b : Nat × Nat) (s : State) : (stretchFlags expl b s).outMin = s.outMin := rfl
@[simp] theorem stretchFlags_outMax (expl : Bool) (b : Nat × Nat) (s : State) : (stretchFlags expl b s).outMax = s.outMax := rfl
@[simp] theorem stretchFlags_srcMin (expl : Bool) (b : Nat × Nat) (s : State) : (stretchFlags expl b s).srcMin = s.srcMin := rfl
@[simp] theorem stretchFlags_srcMax (expl : Bool) (b : Nat × Nat) (s : State) : (stretchFlags expl b s).srcMax = s.srcMax := rfl
@[simp] theorem stretchFlags_obsMin (expl : Bool) (b : Nat × Nat) (s : State) : (stretchFlags expl b s).obsMin = (if expl then s.obsMin else BitVec.ofNat 8 b.1) := rfl
@[simp] theorem stretchFlags_obsMax (expl : Bool) (b : Nat × Nat) (s : State) : (stretchFlags expl b s).obsMax = (if expl then s.obsMax else BitVec.ofNat 8 b.2) := rfl
@[simp] theorem stretchFlags_obsValid (expl : Bool) (b : Nat × Nat) (s : State) : (stretchFlags expl b s).obsValid = (s.obsValid || !expl) := rfl
@[simp] theorem stretchFlags_ram (expl : Bool) (b : Nat × Nat) (s : State) : (stretchFlags expl b s).ram = s.ram := rfl
@[simp] theorem stretchFlags_draws (expl : Bool) (b : Nat × Nat) (s : State) : (stretchFlags expl b s).draws = s.draws := rfl
@[simp] theorem stretchFlags_agenda (expl : Bool) (b : Nat × Nat) (s : State) : (stretchFlags expl b s).agenda = s.agenda := rfl
@[simp] theorem stretchFlags_responses (expl : Bool) (b : Nat × Nat) (s : State) : (stretchFlags expl b s).responses = s.responses := rfl

@[simp] theorem softReset_ie (c : Option Instr) (s : State) : (softReset c s).ie = false := rfl
@[simp] theorem softReset_busy (c : Option Instr) (s : State) : (softReset c s).busy = false := rfl
@[simp] theorem softReset_done (c : Option Instr) (s : State) : (softReset c s).done = false := rfl
@[simp] theorem softReset_degen (c : Option Instr) (s : State) : (softReset c s).degen = false := rfl
@[simp] theorem softReset_werr (c : Option Instr) (s : State) : (softReset c s).werr = false := rfl
@[simp] theorem softReset_err (c : Option Instr) (s : State) : (softReset c s).err = 0#4 := rfl
@[simp] theorem softReset_cmd (c : Option Instr) (s : State) : (softReset c s).cmd = 0#32 := rfl
@[simp] theorem softReset_src (c : Option Instr) (s : State) : (softReset c s).src = 0#32 := rfl
@[simp] theorem softReset_dst (c : Option Instr) (s : State) : (softReset c s).dst = 0#32 := rfl
@[simp] theorem softReset_width (c : Option Instr) (s : State) : (softReset c s).width = 0#16 := rfl
@[simp] theorem softReset_height (c : Option Instr) (s : State) : (softReset c s).height = 0#16 := rfl
@[simp] theorem softReset_channels (c : Option Instr) (s : State) : (softReset c s).channels = 0#4 := rfl
@[simp] theorem softReset_opnd0 (c : Option Instr) (s : State) : (softReset c s).opnd0 = 0#32 := rfl
@[simp] theorem softReset_opnd1 (c : Option Instr) (s : State) : (softReset c s).opnd1 = 0#32 := rfl
@[simp] theorem softReset_opnd2 (c : Option Instr) (s : State) : (softReset c s).opnd2 = 0#32 := rfl
@[simp] theorem softReset_gamma (c : Option Instr) (s : State) : (softReset c s).gamma = 0#32 := rfl
@[simp] theorem softReset_gainc (c : Option Instr) (s : State) : (softReset c s).gainc = 0x00010000#32 := rfl
@[simp] theorem softReset_outMin (c : Option Instr) (s : State) : (softReset c s).outMin = 0#8 := rfl
@[simp] theorem softReset_outMax (c : Option Instr) (s : State) : (softReset c s).outMax = 0#8 := rfl
@[simp] theorem softReset_srcMin (c : Option Instr) (s : State) : (softReset c s).srcMin = 0#8 := rfl
@[simp] theorem softReset_srcMax (c : Option Instr) (s : State) : (softReset c s).srcMax = 0#8 := rfl
@[simp] theorem softReset_obsMin (c : Option Instr) (s : State) : (softReset c s).obsMin = 0#8 := rfl
@[simp] theorem softReset_obsMax (c : Option Instr) (s : State) : (softReset c s).obsMax = 0#8 := rfl
@[simp] theorem softReset_obsValid (c : Option Instr) (s : State) : (softReset c s).obsValid = false := rfl
@[simp] theorem softReset_ram (c : Option Instr) (s : State) : (softReset c s).ram = scatterFree s.draws (abortedAddrs c s) s.ram := rfl
@[simp] theorem softReset_draws (c : Option Instr) (s : State) : (softReset c s).draws = s.draws + 1 := rfl
@[simp] theorem softReset_agenda (c : Option Instr) (s : State) : (softReset c s).agenda = s.agenda := rfl
@[simp] theorem softReset_responses (c : Option Instr) (s : State) : (softReset c s).responses = s.responses := rfl

@[simp] theorem powerOnReset_ie (s : State) : (powerOnReset s).ie = false := rfl
@[simp] theorem powerOnReset_busy (s : State) : (powerOnReset s).busy = false := rfl
@[simp] theorem powerOnReset_done (s : State) : (powerOnReset s).done = false := rfl
@[simp] theorem powerOnReset_degen (s : State) : (powerOnReset s).degen = false := rfl
@[simp] theorem powerOnReset_werr (s : State) : (powerOnReset s).werr = false := rfl
@[simp] theorem powerOnReset_err (s : State) : (powerOnReset s).err = 0#4 := rfl
@[simp] theorem powerOnReset_cmd (s : State) : (powerOnReset s).cmd = 0#32 := rfl
@[simp] theorem powerOnReset_src (s : State) : (powerOnReset s).src = 0#32 := rfl
@[simp] theorem powerOnReset_dst (s : State) : (powerOnReset s).dst = 0#32 := rfl
@[simp] theorem powerOnReset_width (s : State) : (powerOnReset s).width = 0#16 := rfl
@[simp] theorem powerOnReset_height (s : State) : (powerOnReset s).height = 0#16 := rfl
@[simp] theorem powerOnReset_channels (s : State) : (powerOnReset s).channels = 0#4 := rfl
@[simp] theorem powerOnReset_opnd0 (s : State) : (powerOnReset s).opnd0 = 0#32 := rfl
@[simp] theorem powerOnReset_opnd1 (s : State) : (powerOnReset s).opnd1 = 0#32 := rfl
@[simp] theorem powerOnReset_opnd2 (s : State) : (powerOnReset s).opnd2 = 0#32 := rfl
@[simp] theorem powerOnReset_gamma (s : State) : (powerOnReset s).gamma = 0#32 := rfl
@[simp] theorem powerOnReset_gainc (s : State) : (powerOnReset s).gainc = 0x00010000#32 := rfl
@[simp] theorem powerOnReset_outMin (s : State) : (powerOnReset s).outMin = 0#8 := rfl
@[simp] theorem powerOnReset_outMax (s : State) : (powerOnReset s).outMax = 0#8 := rfl
@[simp] theorem powerOnReset_srcMin (s : State) : (powerOnReset s).srcMin = 0#8 := rfl
@[simp] theorem powerOnReset_srcMax (s : State) : (powerOnReset s).srcMax = 0#8 := rfl
@[simp] theorem powerOnReset_obsMin (s : State) : (powerOnReset s).obsMin = 0#8 := rfl
@[simp] theorem powerOnReset_obsMax (s : State) : (powerOnReset s).obsMax = 0#8 := rfl
@[simp] theorem powerOnReset_obsValid (s : State) : (powerOnReset s).obsValid = false := rfl
@[simp] theorem powerOnReset_ram (s : State) : (powerOnReset s).ram = s.ram.powerUp s.draws := rfl
@[simp] theorem powerOnReset_draws (s : State) : (powerOnReset s).draws = s.draws + 1 := rfl
@[simp] theorem powerOnReset_agenda (s : State) : (powerOnReset s).agenda = s.agenda := rfl
@[simp] theorem powerOnReset_responses (s : State) : (powerOnReset s).responses = s.responses := rfl

@[simp] theorem reset_ie : State.reset.ie = false := rfl
@[simp] theorem reset_busy : State.reset.busy = false := rfl
@[simp] theorem reset_done : State.reset.done = false := rfl
@[simp] theorem reset_degen : State.reset.degen = false := rfl
@[simp] theorem reset_werr : State.reset.werr = false := rfl
@[simp] theorem reset_err : State.reset.err = 0#4 := rfl
@[simp] theorem reset_cmd : State.reset.cmd = 0#32 := rfl
@[simp] theorem reset_src : State.reset.src = 0#32 := rfl
@[simp] theorem reset_dst : State.reset.dst = 0#32 := rfl
@[simp] theorem reset_width : State.reset.width = 0#16 := rfl
@[simp] theorem reset_height : State.reset.height = 0#16 := rfl
@[simp] theorem reset_channels : State.reset.channels = 0#4 := rfl
@[simp] theorem reset_opnd0 : State.reset.opnd0 = 0#32 := rfl
@[simp] theorem reset_opnd1 : State.reset.opnd1 = 0#32 := rfl
@[simp] theorem reset_opnd2 : State.reset.opnd2 = 0#32 := rfl
@[simp] theorem reset_gamma : State.reset.gamma = 0#32 := rfl
@[simp] theorem reset_gainc : State.reset.gainc = 0x00010000#32 := rfl
@[simp] theorem reset_outMin : State.reset.outMin = 0#8 := rfl
@[simp] theorem reset_outMax : State.reset.outMax = 0#8 := rfl
@[simp] theorem reset_srcMin : State.reset.srcMin = 0#8 := rfl
@[simp] theorem reset_srcMax : State.reset.srcMax = 0#8 := rfl
@[simp] theorem reset_obsMin : State.reset.obsMin = 0#8 := rfl
@[simp] theorem reset_obsMax : State.reset.obsMax = 0#8 := rfl
@[simp] theorem reset_obsValid : State.reset.obsValid = false := rfl
@[simp] theorem reset_ram : State.reset.ram = { cells := [], draw := 0, topWord := Config.sramTopWord } := rfl
@[simp] theorem reset_draws : State.reset.draws = 1 := rfl
@[simp] theorem reset_agenda : State.reset.agenda = [] := rfl
@[simp] theorem reset_responses : State.reset.responses = [] := rfl

/-- A power-on reset is the reset state, but for sample RAM's new draw and the model's own fields. -/
theorem powerOnReset_eq (s : State) :
    powerOnReset s = { State.reset with ram := s.ram.powerUp s.draws, draws := s.draws + 1, agenda := s.agenda,
                                        responses := s.responses } := rfl

end Sys2Proof.Machine
end

