-- ==== Sys2Proof/Laws/Commands.lean ====
section
/-! SUPPORT. What validation lets through, what each command's body does to sample RAM, and the one inversion lemma of
`exec`. -/

namespace Sys2Proof.Machine

/-! ### Validation -/

theorem N_eq (s : State) : s.N = s.height.toNat * s.width.toNat * s.channels.toNat := rfl

theorem checkFormat_none (s : State) : checkFormat s = none ↔ s.FormatOk := by
  unfold checkFormat State.W State.H State.C
  split
  · rename_i h
    simp only [reduceCtorEq, false_iff]
    omega
  · rename_i h
    simp only [true_iff]
    omega

theorem checkSelector_none (m : SatMods) (s : State) : checkSelector m s = none ↔ s.SelectorOk m := by
  unfold checkSelector State.C State.SelectorOk
  split
  · rename_i h; simp only [reduceCtorEq, h.1, forall_const, false_iff]; omega
  · rename_i h
    simp only [true_iff]
    intro hc
    by_contra hl
    exact h ⟨hc, by omega⟩

theorem checkRanges_none (i : Instr) (s : State) :
    checkRanges i s = none ↔ s.SourceOk ∧ (isInplace i = false → s.OutputOk (outputCount i s)) := by
  unfold checkRanges State.SourceOk State.OutputOk State.S State.D State.N State.H State.W State.C
  generalize outputCount i s = n
  cases isInplace i <;> simp only [if_true, if_false, Bool.false_eq_true, reduceCtorEq, true_implies, false_implies,
    and_true]
  · split
    · simp only [reduceCtorEq, false_iff]; omega
    · split
      · simp only [reduceCtorEq, false_iff]; omega
      · split
        · simp only [reduceCtorEq, false_iff]; omega
        · simp only [true_iff]; omega
  · split
    · simp only [reduceCtorEq, false_iff]; omega
    · simp only [true_iff]; omega

theorem opnd_any_zero (m : SatMods) (s : State) :
    (usedOperands m s.C).any (fun j => s.opnd j == 0#32) = false ↔ s.OperandsNonzero m := by
  unfold usedOperands State.OperandsNonzero State.C
  cases m.perch <;> cases m.chen <;> simp [State.opnd]

theorem checkDomain_sdiv_none (m : SatMods) (s : State) : checkDomain (.sdiv m) s = none ↔ s.OperandsNonzero m := by
  rw [← opnd_any_zero]
  change (if (usedOperands m s.C).any (fun j => s.opnd j == 0#32) = true then some ErrCode.domain else none) = none ↔ _
  generalize (usedOperands m s.C).any (fun j => s.opnd j == 0#32) = b
  cases b <;> simp

theorem checkDomain_gamma_none (s : State) : checkDomain .gamma s = none ↔ s.gamma ≠ 0#32 ∧ s.gainc ≠ 0#32 := by
  unfold checkDomain
  simp only
  split
  · rename_i h; simp only [reduceCtorEq, false_iff]; tauto
  · rename_i h; simp only [true_iff]; tauto

/-- Validation passes when every step of R109 does. -/
theorem validate_none (i : Instr) (s : State) :
    validate i s = none ↔
      checkFormat s = none ∧ checkShape i s = none ∧ checkRanges i s = none ∧ checkDomain i s = none := by
  unfold validate
  simp only [Option.or_eq_none_iff]
  tauto

/-- The first failing step of R109 decides. -/
theorem validate_of_format {i : Instr} {s : State} {e : ErrCode} (h : checkFormat s = some e) :
    validate i s = some e := by simp [validate, h]

theorem validate_of_shape {i : Instr} {s : State} {e : ErrCode} (h0 : checkFormat s = none)
    (h : checkShape i s = some e) : validate i s = some e := by simp [validate, h0, h]

theorem validate_of_ranges {i : Instr} {s : State} {e : ErrCode} (h0 : checkFormat s = none)
    (h1 : checkShape i s = none) (h : checkRanges i s = some e) : validate i s = some e := by
  simp [validate, h0, h1, h]

theorem validate_of_domain {i : Instr} {s : State} (h0 : checkFormat s = none) (h1 : checkShape i s = none)
    (h2 : checkRanges i s = none) : validate i s = checkDomain i s := by simp [validate, h0, h1, h2]

/-! ### The bodies -/

/-- The offsets of a command's output range, cut to sample RAM. -/
theorem mem_outputAddrs (i : Instr) (s : State) (a : Nat) :
    a ∈ outputAddrs i s ↔ a < s.sramBytes ∧
      if isInplace i then ∃ n, n < s.N ∧ n % s.C = selectorOf i ∧ a = s.S + n
      else s.D ≤ a ∧ a < s.D + outputCount i s := by
  unfold outputAddrs countInRam
  split
  · simp only [List.mem_map, List.mem_filter, List.mem_range, beq_iff_eq]
    constructor
    · rintro ⟨n, ⟨h1, h2⟩, rfl⟩; exact ⟨by omega, n, by omega, h2, rfl⟩
    · rintro ⟨h0, n, h1, h2, rfl⟩; exact ⟨n, ⟨by omega, h2⟩, rfl⟩
  · simp only [List.mem_map, List.mem_range]
    constructor
    · rintro ⟨n, h, rfl⟩; omega
    · rintro ⟨h0, h1, h2⟩; exact ⟨a - s.D, by omega, by omega⟩

/-- The output range of a command that validation lets run: the cut takes nothing away. -/
theorem mem_outputAddrs_of_ranges {i : Instr} {s : State} (h : checkRanges i s = none) (a : Nat) :
    a ∈ outputAddrs i s ↔
      if isInplace i then ∃ n, n < s.N ∧ n % s.C = selectorOf i ∧ a = s.S + n
      else s.D ≤ a ∧ a < s.D + outputCount i s := by
  obtain ⟨hs, hd⟩ := (checkRanges_none i s).1 h
  rw [mem_outputAddrs, and_iff_right_iff_imp]
  unfold State.SourceOk at hs
  rw [← N_eq] at hs
  split
  · rintro ⟨n, h1, -, rfl⟩
    exact Nat.lt_of_lt_of_le (Nat.add_lt_add_left h1 _) hs
  · rename_i hi
    rintro ⟨-, h2⟩
    exact Nat.lt_of_lt_of_le h2 (hd (by simpa using hi)).1

/-- Which bytes an aborted command leaves unspecified (70_reset_and_hazards.md R128). -/
theorem mem_abortedAddrs (c : Option Instr) (s : State) (a : Nat) :
    a ∈ abortedAddrs c s ↔ s.busy = true ∧ ∃ i, c = some i ∧ a ∈ outputAddrs i s := by
  unfold abortedAddrs
  cases s.busy <;> cases c <;> simp

/-- What a soft reset does to sample RAM: free bytes in the output range of an aborted command, every other byte as it
was. -/
theorem softReset_rewritten (c : Option Instr) (s : State) :
    Rewritten s.ram (softReset c s).ram (fun a => a ∈ abortedAddrs c s) (fun a => Config.freeByte s.draws a) := by
  refine scatterFree_spec s.draws (abortedAddrs c s) s.ram fun a ha => ?_
  obtain ⟨-, i, -, hi⟩ := (mem_abortedAddrs c s a).1 ha
  exact ((mem_outputAddrs i s a).1 hi).1

/-- `overRam` with a body that ends well. -/
theorem overRam_some {f : State → Memory → Option Memory} {s : State} {r : Memory} (h : f s s.ram = some r) :
    overRam f s = some { s with ram := r } := by simp [overRam, h]

/-- A saturating-arithmetic body that is not in place: every destination byte takes its value. -/
theorem satBody_copy (f : Byte → Word → Byte) (m : SatMods) (s : State) (hm : m.inplace = false)
    (hs : s.SourceOk) (hd : s.OutputOk s.N) :
    ∃ r, satBody f m s s.ram = some r ∧ Rewritten s.ram r (fun a => s.D ≤ a ∧ a < s.D + s.N)
      (fun a => let n := a - s.D
                let v := s.byte (s.S + n)
                if selected m (n % s.C) then f v (operandOf m s (n % s.C)) else v) := by
  unfold satBody
  simp only [hm, Bool.false_eq_true, if_false]
  exact mapSamples_spec s.S s.D s.N _ s.ram hs hd.1 hd.2

/-- A saturating-arithmetic body in place: every sample of the selected channel takes its value. -/
theorem satBody_inplace (f : Byte → Word → Byte) (m : SatMods) (s : State) (hm : m.inplace = true)
    (hs : s.SourceOk) :
    ∃ r, satBody f m s s.ram = some r
      ∧ Rewritten s.ram r (fun a => ∃ n, n < s.N ∧ n % s.C = m.chsel.toNat ∧ a = s.S + n)
      (fun a => f (s.byte a) (operandOf m s m.chsel.toNat)) := by
  unfold satBody
  simp only [hm, if_true]
  obtain ⟨r, h, hw⟩ := updateSamples_spec s.S s.N (fun i => i % s.C == m.chsel.toNat)
    (fun v => f v (operandOf m s m.chsel.toNat)) s.ram hs
  refine ⟨r, h, hw.congr (fun a => ?_) fun _ _ => rfl⟩
  simp only [beq_iff_eq]
  constructor
  · rintro ⟨h1, h2, h3⟩; exact ⟨a - s.S, by omega, h3, by omega⟩
  · rintro ⟨n, h1, h2, rfl⟩; exact ⟨by omega, by omega, by rw [Nat.add_sub_cancel_left]; exact h2⟩

/-- The body of GAMMA. -/
theorem gammaBody_spec (s : State) (hs : s.SourceOk) (hd : s.OutputOk s.N) :
    ∃ r, gammaBody s s.ram = some r ∧ Rewritten s.ram r (fun a => s.D ≤ a ∧ a < s.D + s.N)
      (fun a => gammaSample s.gamma s.gainc (s.byte (s.S + (a - s.D)))) :=
  mapSamples_spec s.S s.D s.N _ s.ram hs hd.1 hd.2

/-- The bytes CSTR writes, given its bounds. -/
theorem stretchRam_spec (b : Nat × Nat) (s : State) (hs : s.SourceOk) (hd : s.OutputOk s.N) :
    ∃ r, stretchRam b s s.ram = some r ∧ Rewritten s.ram r (fun a => s.D ≤ a ∧ a < s.D + s.N)
      (fun a => if b.1 = b.2 then s.outMin
        else stretchSample s.outMin.toNat s.outMax.toNat b.1 b.2 (s.byte (s.S + (a - s.D))).toNat) := by
  unfold stretchRam
  split
  · exact fillSamples_spec s.D s.N s.outMin s.ram hd.1
  · exact mapSamples_spec s.S s.D s.N _ s.ram hs hd.1 hd.2

/-- The bounds CSTR works with, in either mode. -/
theorem stretchBounds_spec (expl : Bool) (s : State) (hf : s.FormatOk) (hs : s.SourceOk) :
    ∃ b, stretchBounds expl s = some b
      ∧ (expl = true → b = (s.srcMin.toNat, s.srcMax.toNat))
      ∧ (expl = false → ∃ lo hi : Byte, b = (lo.toNat, hi.toNat) ∧ s.Observed lo hi) := by
  unfold stretchBounds
  cases expl
  · obtain ⟨h1, h2, h3⟩ := hf
    have hn : 0 < s.N := by
      rw [N_eq]
      exact Nat.mul_pos (Nat.mul_pos h2 h1) (by omega)
    obtain ⟨lo, hi, hb, ⟨i, hi1, hi2⟩, ⟨j, hj1, hj2⟩, hall⟩ := sampleBounds_spec s.S s.ram s.N hn hs
    refine ⟨_, by simp only [Bool.false_eq_true, if_false]; exact hb, by simp, fun _ =>
      ⟨s.byte (s.S + i), s.byte (s.S + j), ?_, ⟨i, hi1, rfl⟩, ⟨j, hj1, rfl⟩, fun n hn => ?_⟩⟩
    · simp only [State.byte, hi2, hj2]
    · have := hall n hn
      rw [← hi2, ← hj2] at this
      exact this
  · exact ⟨_, by simp only [if_true], fun _ => rfl, by simp⟩

/-- The body of BPLANE: plane `k` at `[D + k*N, D + (k+1)*N)`. -/
theorem planesBody_spec (s : State) (hs : s.S + s.H * s.W ≤ s.sramBytes) (hd : s.D + 8 * (s.H * s.W) ≤ s.sramBytes)
    (hsep : s.S + s.H * s.W ≤ s.D ∨ s.D + 8 * (s.H * s.W) ≤ s.S) :
    ∃ r, planesBody s s.ram = some r ∧ Rewritten s.ram r (fun a => s.D ≤ a ∧ a < s.D + 8 * (s.H * s.W))
      (fun a => planeSample ((a - s.D) / (s.H * s.W)) (s.byte (s.S + (a - s.D) % (s.H * s.W)))) := by
  unfold planesBody
  unfold State.sramBytes at hs hd
  generalize hn : s.H * s.W = n at *
  suffices h : ∀ k, k ≤ 8 → ∃ r, forRange k
      (fun k r => mapSamples s.S (s.D + k * n) n (fun _ v => planeSample k v) r) s.ram = some r
      ∧ Rewritten s.ram r (fun a => s.D ≤ a ∧ a < s.D + k * n)
        (fun a => planeSample ((a - s.D) / n) (s.byte (s.S + (a - s.D) % n))) from h 8 le_rfl
  intro k hk
  induction k with
  | zero => exact ⟨s.ram, rfl, (Rewritten.refl _ _).congr (fun a => ⟨False.elim, fun h => by omega⟩) fun _ _ => rfl⟩
  | succ k ih =>
    obtain ⟨r, hr, hw⟩ := ih (by omega)
    have hb := hw.bytes
    have hkn : (k + 1) * n ≤ 8 * n := Nat.mul_le_mul_right _ hk
    have hk1 : (k + 1) * n = k * n + n := by ring
    obtain ⟨q, hq, hq'⟩ := mapSamples_spec s.S (s.D + k * n) n (fun _ v => planeSample k v) r (by omega) (by omega)
      (by omega)
    refine ⟨q, by simp only [forRange, hr, Option.bind_some, hq], ?_⟩
    refine (hw.trans (hq'.congr (q := fun a => s.D + k * n ≤ a ∧ a < s.D + k * n + n)
      (w := fun a => planeSample ((a - s.D) / n) (s.byte (s.S + (a - s.D) % n))) (fun _ => Iff.rfl) ?_) ?_).congr
      (fun a => by omega) fun _ _ => rfl
    · intro a ha
      obtain ⟨j, rfl⟩ := Nat.exists_eq_add_of_le ha.1
      have hj : j < n := by omega
      have e : s.D + k * n + j - s.D = j + n * k := by rw [Nat.mul_comm n k]; omega
      rw [e, Nat.add_mul_div_left _ _ (by omega), Nat.add_mul_mod_self_left, Nat.div_eq_of_lt hj,
        Nat.mod_eq_of_lt hj, Nat.zero_add, Nat.add_sub_cancel_left]
      exact congrArg _ (hw.outside _ (by omega))
    · intro a h1 h2; omega

/-! ### Execution -/

/-- `Execute` with `Complete`: an illegal word, a failed check, or the command's own effect. -/
theorem executeCommand_illegal {i : Instr} {s : State} (h : i.wellFormed = false) (body : State → Option State) :
    executeCommand i body s = .next (complete (some .illegalCmd) s) := by simp [executeCommand, h]

theorem executeCommand_error {i : Instr} {s : State} {e : ErrCode} (h : i.wellFormed = true)
    (hv : validate i s = some e) (body : State → Option State) :
    executeCommand i body s = .next (complete (some e) s) := by simp [executeCommand, h, hv]

theorem executeCommand_ok {i : Instr} {s t : State} (h : i.wellFormed = true) (hv : validate i s = none)
    {body : State → Option State} (hb : body s = some t) :
    executeCommand i body s = .next (complete none t) := by simp [executeCommand, h, hv, hb]

/-- The command's own effect before completion. -/
def bodyOf : Instr → State → Option State
  | .sadd m => overRam (satBody saddSample m)
  | .ssub m => overRam (satBody ssubSample m)
  | .smul m => overRam (satBody smulSample m)
  | .sdiv m => overRam (satBody sdivSample m)
  | .gamma => overRam gammaBody
  | .cstr expl => stretchBody expl
  | .bplane => overRam planesBody

theorem exec_eq (i : Instr) (s : State) : exec i s = executeCommand i (bodyOf i) s := by cases i <;> rfl

/-- The state after a command's own effect: new bytes in its output range, and for CSTR the flags of R97 and R98. -/
theorem bodyOf_spec (i : Instr) (s : State) (hv : validate i s = none) :
    ∃ r v, Rewritten s.ram r (fun a => a ∈ outputAddrs i s) v
      ∧ ((∀ expl, i ≠ .cstr expl) → bodyOf i s = some { s with ram := r })
      ∧ (∀ expl, i = .cstr expl → ∃ b, stretchBounds expl s = some b
          ∧ bodyOf i s = some (stretchFlags expl b { s with ram := r })) := by
  obtain ⟨hf, hsh, hr, -⟩ := (validate_none i s).1 hv
  rw [checkFormat_none] at hf
  have hmem := mem_outputAddrs_of_ranges hr
  obtain ⟨hs, hd⟩ := (checkRanges_none i s).1 hr
  have copy : isInplace i = false → ∀ a, a ∈ outputAddrs i s ↔ s.D ≤ a ∧ a < s.D + outputCount i s := by
    intro h a; simp [hmem, h]
  have sat : ∀ f m, isInplace i = m.inplace → outputCount i s = s.N → selectorOf i = m.chsel.toNat →
      ∃ r v, Rewritten s.ram r (fun a => a ∈ outputAddrs i s) v ∧ satBody f m s s.ram = some r := by
    intro f m h1 h2 h3
    cases hm : m.inplace
    · obtain ⟨r, h, hw⟩ := satBody_copy f m s hm hs (by rw [← h2]; exact hd (by rw [h1, hm]))
      exact ⟨r, _, hw.congr (fun a => by rw [copy (by rw [h1, hm]), h2]) fun _ _ => rfl, h⟩
    · obtain ⟨r, h, hw⟩ := satBody_inplace f m s hm hs
      exact ⟨r, _, hw.congr (fun a => by simp [hmem, h1, hm, h3]) fun _ _ => rfl, h⟩
  cases i with
  | sadd m =>
    obtain ⟨r, v, hw, h⟩ := sat saddSample m rfl rfl rfl
    exact ⟨r, v, hw, fun _ => overRam_some h, by simp⟩
  | ssub m =>
    obtain ⟨r, v, hw, h⟩ := sat ssubSample m rfl rfl rfl
    exact ⟨r, v, hw, fun _ => overRam_some h, by simp⟩
  | smul m =>
    obtain ⟨r, v, hw, h⟩ := sat smulSample m rfl rfl rfl
    exact ⟨r, v, hw, fun _ => overRam_some h, by simp⟩
  | sdiv m =>
    obtain ⟨r, v, hw, h⟩ := sat sdivSample m rfl rfl rfl
    exact ⟨r, v, hw, fun _ => overRam_some h, by simp⟩
  | gamma =>
    obtain ⟨r, h, hw⟩ := gammaBody_spec s hs (hd rfl)
    exact ⟨r, _, hw.congr (fun a => (copy rfl a).symm) fun _ _ => rfl, fun _ => overRam_some h, by simp⟩
  | cstr expl =>
    obtain ⟨b, hb, -⟩ := stretchBounds_spec expl s hf hs
    obtain ⟨r, h, hw⟩ := stretchRam_spec b s hs (hd rfl)
    refine ⟨r, _, hw.congr (fun a => (copy rfl a).symm) fun _ _ => rfl, fun hc => (hc expl rfl).elim, fun e he => ?_⟩
    cases he
    exact ⟨b, hb, by simp [bodyOf, stretchBody, hb, overRam_some h]⟩
  | bplane =>
    have hC : s.channels.toNat = 1 := by
      unfold checkShape at hsh
      simp only [State.C] at hsh
      by_contra hc
      simp [hc] at hsh
    have hd' : s.OutputOk (8 * (s.H * s.W)) := hd rfl
    unfold State.SourceOk at hs
    unfold State.OutputOk at hd'
    rw [hC, Nat.mul_one] at hs hd'
    obtain ⟨r, h, hw⟩ := planesBody_spec s hs hd'.1 hd'.2
    exact ⟨r, _, hw.congr (fun a => (copy rfl a).symm) fun _ _ => rfl, fun _ => overRam_some h, by simp⟩

/-- Everything a command can do: an illegal word or a failed check is reported and nothing else changes; otherwise the
bytes of the output range take new values, CSTR writes its flags, and the command completes. -/
theorem exec_cases (i : Instr) (s : State) :
    (i.wellFormed = false ∧ exec i s = .next (complete (some .illegalCmd) s))
    ∨ (i.wellFormed = true ∧ ∃ e, validate i s = some e ∧ exec i s = .next (complete (some e) s))
    ∨ (i.wellFormed = true ∧ validate i s = none
      ∧ ∃ r v, Rewritten s.ram r (fun a => a ∈ outputAddrs i s) v
        ∧ (((∀ expl, i ≠ .cstr expl) ∧ exec i s = .next (complete none { s with ram := r }))
          ∨ ∃ expl b, i = .cstr expl ∧ stretchBounds expl s = some b
            ∧ exec i s = .next (complete none (stretchFlags expl b { s with ram := r })))) := by
  rw [exec_eq]
  cases hw : i.wellFormed
  · exact .inl ⟨rfl, executeCommand_illegal hw _⟩
  · cases hv : validate i s with
    | some e => exact .inr (.inl ⟨rfl, e, rfl, executeCommand_error hw hv _⟩)
    | none =>
      obtain ⟨r, v, hr, h1, h2⟩ := bodyOf_spec i s hv
      refine .inr (.inr ⟨rfl, rfl, r, v, hr, ?_⟩)
      by_cases hc : ∀ expl, i ≠ .cstr expl
      · exact .inl ⟨hc, executeCommand_ok hw hv (h1 hc)⟩
      · obtain ⟨e, he⟩ := not_forall.1 hc
        obtain ⟨b, hb0, hb⟩ := h2 e (not_not.1 he)
        exact .inr ⟨e, b, not_not.1 he, hb0, executeCommand_ok hw hv hb⟩

/-- The codes of an error are 1 to 4 (60_exceptions.md R107). -/
theorem errBits_some (e : ErrCode) : 0 < (errBits (some e)).toNat ∧ (errBits (some e)).toNat ≤ 4 := by
  cases e <;> decide

end Sys2Proof.Machine
end

