-- ==== Sys2Proof/Laws/Bus.lean ====
section
/-! SUPPORT. What a host transaction and a step can do, said once. -/

namespace Sys2Proof.Machine

/-- The register map, read backwards: the one offset of each register. -/
theorem regAt_some {n : Nat} {r : Reg} (h : regAt n = some r) : (n, r) ∈ regMap := by
  unfold regAt at h
  rw [Option.map_eq_some_iff] at h
  obtain ⟨⟨k, q⟩, hk, rfl⟩ := h
  have h1 := List.find?_some hk
  have h2 := List.mem_of_find?_eq_some hk
  simp only [beq_iff_eq] at h1
  subst h1
  exact h2

theorem regAt_cmd {n : Nat} (h : regAt n = some .cmd) : n = 0x10 := by
  have := regAt_some h
  simpa [regMap] using this

theorem regAt_ctrl {n : Nat} (h : regAt n = some .ctrl) : n = 0x8 := by
  have := regAt_some h
  simpa [regMap] using this

/-- An aligned access inside sample RAM ends inside it (20_memory.md R48). -/
theorem ramAccess_fits {x : BusTxn} {s : State} (hal : aligned x = true) (hlo : ramBase ≤ x.offset.toNat)
    (hhi : x.offset.toNat < ramBase + s.sramBytes) :
    x.offset.toNat - ramBase + sizeBytes x.size ≤ s.ram.bytes := by
  have hb := bytes_legal s.ram
  unfold aligned at hal
  unfold State.sramBytes at hhi
  unfold ramBase at *
  simp only [beq_iff_eq] at hal
  cases hx : x.size <;> simp only [hx, sizeBytes] at hal ⊢ <;> omega

/-- Everything a host transaction can do. -/
theorem hostAccess_cases (x : BusTxn) (s : State) :
    hostAccess x s = (s, .error)
    ∨ (∃ v, x.access = .read ∧ hostAccess x s = (s, .okRead v))
    ∨ (∃ v, x.access = .read ∧ s.busy = true ∧ hostAccess x s = ({ s with draws := s.draws + 1 }, .okRead v))
    ∨ (∃ w, x.access = .write w ∧ hostAccess x s = (s, .okWrite))
    ∨ (∃ w r, x.access = .write w ∧ x.size = .four ∧ aligned x = true ∧ x.offset.toNat < regionEnd
        ∧ regAt x.offset.toNat = some r ∧ hostAccess x s = (regWrite r w s, .okWrite))
    ∨ (∃ w, x.access = .write w ∧ s.busy = true ∧ aligned x = true ∧ ramBase ≤ x.offset.toNat
        ∧ x.offset.toNat < ramBase + s.sramBytes ∧ hostAccess x s = (dropWrite s, .okWrite))
    ∨ (∃ w, x.access = .write w ∧ s.busy = false ∧ aligned x = true ∧ ramBase ≤ x.offset.toNat
        ∧ x.offset.toNat < ramBase + s.sramBytes ∧ hostAccess x s
          = ({ s with ram := s.ram.writeLE (x.offset.toNat - ramBase) x.size w }, .okWrite)) := by
  unfold hostAccess
  split
  · exact .inl rfl
  · rename_i hal
    simp only [Bool.not_eq_true', Bool.not_eq_false] at hal
    split
    · rename_i hreg
      split
      · rename_i hsz
        unfold regAccess
        cases ha : x.access with
        | read => exact .inr (.inl ⟨_, rfl, rfl⟩)
        | write w =>
          cases hr : regAt x.offset.toNat with
          | none => exact .inr (.inr (.inr (.inl ⟨w, rfl, rfl⟩)))
          | some r => exact .inr (.inr (.inr (.inr (.inl ⟨w, r, rfl, hsz, hal, hreg, rfl, rfl⟩))))
      · exact .inl rfl
    · split
      · rename_i hram
        unfold ramAccess
        cases ha : x.access with
        | read =>
          cases hb : s.busy
          · exact .inr (.inl ⟨_, rfl, rfl⟩)
          · exact .inr (.inr (.inl ⟨_, rfl, rfl, rfl⟩))
        | write w =>
          cases hb : s.busy
          · exact .inr (.inr (.inr (.inr (.inr (.inr ⟨w, rfl, rfl, hal, hram.1, hram.2, rfl⟩)))))
          · exact .inr (.inr (.inr (.inr (.inr (.inl ⟨w, rfl, rfl, hal, hram.1, hram.2, rfl⟩)))))
      · unfold reservedAccess
        cases ha : x.access with
        | read => exact .inr (.inl ⟨_, rfl, rfl⟩)
        | write w => exact .inr (.inr (.inr (.inl ⟨w, rfl, rfl⟩)))

/-- A register transaction, at an offset where it is one. -/
theorem hostAccess_reg {n : BitVec 25} (acc : Access) (s : State) (h1 : n.toNat < 0x100) (h2 : n.toNat % 4 = 0) :
    hostAccess { offset := n, size := .four, access := acc } s = regAccess n.toNat acc s := by
  simp [hostAccess, aligned, sizeBytes, regionEnd, h1, h2]

/-- What a register offset answers to a read (10_state.md R20). -/
theorem readWord_reg {n : BitVec 25} {r : Reg} (s : State) (h1 : n.toNat < 0x100) (h2 : n.toNat % 4 = 0)
    (hr : regAt n.toNat = some r) : readWord n s = (s, .okRead (regRead r s)) := by
  rw [readWord, hostAccess_reg _ _ h1 h2]; simp [regAccess, hr]

/-- What a write at a register offset does (10_state.md R20, R21). -/
theorem writeWord_reg {n : BitVec 25} {r : Reg} (w : Word) (s : State) (h1 : n.toNat < 0x100) (h2 : n.toNat % 4 = 0)
    (hr : regAt n.toNat = some r) : writeWord n w s = (regWrite r w s, .okWrite) := by
  rw [writeWord, hostAccess_reg _ _ h1 h2]; simp [regAccess, hr]

/-- A CTRL write, by its SRST bit (10_state.md R24). -/
theorem writeWord_ctrl (w : Word) (s : State) :
    writeWord 0x08#25 w s = (writeCtrl w s, .okWrite) := by
  rw [writeWord_reg (r := .ctrl) w s (by decide) (by decide) (by decide)]
  simp [regWrite, frozenWhileBusy, storeReg]

/-- A sample-RAM transaction, at an offset where it is one. -/
theorem hostAccess_ram {x : BusTxn} {s : State} {a : Nat} (h1 : x.offset.toNat = 0x1000000 + a)
    (h2 : a % sizeBytes x.size = 0) (h3 : a < s.sramBytes) : hostAccess x s = ramAccess a x.size x.access s := by
  have hal : (0x1000000 + a) % sizeBytes x.size = 0 := by cases hx : x.size <;> simp_all [sizeBytes] <;> omega
  unfold hostAccess aligned regionEnd ramBase
  rw [h1]
  simp only [hal, beq_self_eq_true, Bool.not_true, Bool.false_eq_true, if_false]
  rw [if_neg (by omega), if_pos (by omega), Nat.add_sub_cancel_left]

/-- The three moves of a step. -/
theorem step_eq_of_bus {s : State} {x : BusTxn} {rest : List Event} (h : s.agenda = .bus x :: rest) :
    step s = .next (hostTurn x { s with agenda := rest }) := by simp [step, nextEvent, popEvent, takeTurn, h]

theorem step_eq_of_engine {s : State} {rest : List Event} (h : s.agenda = .engine :: rest) :
    step s = engineTurn { s with agenda := rest } := by simp [step, nextEvent, popEvent, takeTurn, h]

theorem step_eq_of_powerOn {s : State} {rest : List Event} (h : s.agenda = .powerOn :: rest) :
    step s = .next (powerOnReset { s with agenda := rest }) := by simp [step, nextEvent, popEvent, takeTurn, h]

theorem step_eq_of_nil {s : State} (h : s.agenda = []) : step s = engineTurn s := by
  have : popEvent s = s := by unfold popEvent; rw [h]; cases s; simp_all
  simp [step, nextEvent, takeTurn, h, this]

end Sys2Proof.Machine
end

