-- ==== Sys2Proof/Laws/PerInstr.lean ====
section
/-! SUPPORT. Statements about every command as syntax, one lemma per constructor. -/

namespace Sys2Proof.Laws.opcodeFits

/-- The command's word has an opcode of 30_encoding.md R67 and its reserved bits 0 (R65), and it is legal exactly when
the command is well formed (R68). -/
def Statement (i : Instr) : Prop :=
  1 ≤ (opField (encode i)).toNat ∧ (opField (encode i)).toNat ≤ 7 ∧ reservedField (encode i) = 0#22
    ∧ legalWord (encode i) = i.wellFormed

/-- The three checks as one test, for evaluation over all the fields. -/
def fits (i : Instr) : Bool :=
  1 ≤ (opField (encode i)).toNat && (opField (encode i)).toNat ≤ 7 && reservedField (encode i) == 0#22
    && legalWord (encode i) == i.wellFormed

theorem of_fits {i : Instr} (h : fits i = true) : Statement i := by
  simpa [fits, Statement, and_assoc] using h

theorem fits_sat : ∀ (p c n : Bool) (k : BitVec 2),
    (fits (.sadd ⟨p, c, k, n⟩) && fits (.ssub ⟨p, c, k, n⟩) && fits (.smul ⟨p, c, k, n⟩)
      && fits (.sdiv ⟨p, c, k, n⟩)) = true := by decide +kernel

theorem sadd (m : SatMods) : Statement (.sadd m) := by
  have h := fits_sat m.perch m.chen m.inplace m.chsel
  simp only [Bool.and_eq_true] at h
  exact of_fits h.1.1.1

theorem ssub (m : SatMods) : Statement (.ssub m) := by
  have h := fits_sat m.perch m.chen m.inplace m.chsel
  simp only [Bool.and_eq_true] at h
  exact of_fits h.1.1.2

theorem smul (m : SatMods) : Statement (.smul m) := by
  have h := fits_sat m.perch m.chen m.inplace m.chsel
  simp only [Bool.and_eq_true] at h
  exact of_fits h.1.2

theorem sdiv (m : SatMods) : Statement (.sdiv m) := by
  have h := fits_sat m.perch m.chen m.inplace m.chsel
  simp only [Bool.and_eq_true] at h
  exact of_fits h.2

theorem gamma : Statement .gamma := of_fits (by decide)

theorem cstr (expl : Bool) : Statement (.cstr expl) := of_fits (by revert expl; decide)

theorem bplane : Statement .bplane := of_fits (by decide)

end Sys2Proof.Laws.opcodeFits
end

