-- ==== Sys2Proof/Laws/Words.lean ====
section
/-! SUPPORT. The words a host reads and the bytes it writes, as numbers and bit by bit. -/

namespace Sys2Proof.Machine

/-- Concatenation as a number: `a` in the more significant position (00_scope.md R7). -/
theorem toNat_concat {m n : Nat} (a : BitVec m) (b : BitVec n) : (a ++ b).toNat = a.toNat * 2 ^ n + b.toNat := by
  rw [BitVec.toNat_append, ← Nat.shiftLeft_add_eq_or_of_lt b.isLt, Nat.shiftLeft_eq]

/-- Byte `i` of a word (20_memory.md R48). -/
theorem byteOf_toNat (w : Word) (i : Nat) : (byteOf w i).toNat = w.toNat / 256 ^ i % 256 := by
  unfold byteOf
  rw [BitVec.extractLsb'_toNat, Nat.shiftRight_eq_div_pow, Nat.pow_mul]

theorem joinBytes_one (f : Nat → Byte) : (joinBytes .one f).toNat = (f 0).toNat := by
  have h := toNat_concat (0#24) (f 0)
  simpa [joinBytes] using h

theorem joinBytes_two (f : Nat → Byte) : (joinBytes .two f).toNat = (f 0).toNat + (f 1).toNat * 256 := by
  have h1 := toNat_concat (0#16) (f 1)
  have h := toNat_concat (0#16 ++ f 1) (f 0)
  rw [h1] at h
  refine Eq.trans h ?_
  simp only [BitVec.toNat_ofNat]
  omega

theorem joinBytes_four (f : Nat → Byte) :
    (joinBytes .four f).toNat
      = (f 0).toNat + (f 1).toNat * 256 + (f 2).toNat * 65536 + (f 3).toNat * 16777216 := by
  have h2 := toNat_concat (f 3) (f 2)
  have h1 := toNat_concat (f 3 ++ f 2) (f 1)
  have h := toNat_concat (f 3 ++ f 2 ++ f 1) (f 0)
  rw [h1, h2] at h
  refine Eq.trans h ?_
  omega

/-- The STATUS word as a number (10_state.md R25). -/
theorem statusWord_toNat (s : State) :
    (statusWord s).toNat
      = s.busy.toNat + 2 * s.done.toNat + 4 * s.degen.toNat + 8 * s.werr.toNat + 256 * s.err.toNat := by
  have h1 := toNat_concat (0#20) s.err
  have h2 := toNat_concat (0#20 ++ s.err) 0#4
  have h3 := toNat_concat (0#20 ++ s.err ++ 0#4) (BitVec.ofBool s.werr)
  have h4 := toNat_concat (0#20 ++ s.err ++ 0#4 ++ BitVec.ofBool s.werr) (BitVec.ofBool s.degen)
  have h5 := toNat_concat (0#20 ++ s.err ++ 0#4 ++ BitVec.ofBool s.werr ++ BitVec.ofBool s.degen)
    (BitVec.ofBool s.done)
  have h := toNat_concat
    (0#20 ++ s.err ++ 0#4 ++ BitVec.ofBool s.werr ++ BitVec.ofBool s.degen ++ BitVec.ofBool s.done)
    (BitVec.ofBool s.busy)
  rw [h5, h4, h3, h2, h1] at h
  refine Eq.trans h ?_
  simp only [BitVec.toNat_ofBool, BitVec.toNat_ofNat]
  omega

/-- The DIMS, FMT, CTRL, CSTOUT, CSTSRC and CSTOBS words as numbers (10_state.md R24, R29, R30, R34 to R36). -/
theorem regRead_dims_toNat (s : State) : (regRead .dims s).toNat = s.height.toNat * 65536 + s.width.toNat :=
  toNat_concat s.height s.width

theorem regRead_fmt_toNat (s : State) : (regRead .fmt s).toNat = s.channels.toNat :=
  (toNat_concat (0#28) s.channels).trans (by simp)

theorem regRead_ctrl_toNat (s : State) : (regRead .ctrl s).toNat = s.ie.toNat :=
  (toNat_concat (0#31) (BitVec.ofBool s.ie)).trans (by simp [BitVec.toNat_ofBool])

theorem threeBytes_toNat {n : Nat} (z : BitVec n) (hi lo : Byte) :
    (z ++ hi ++ lo).toNat = z.toNat * 65536 + hi.toNat * 256 + lo.toNat := by
  rw [toNat_concat, toNat_concat]
  omega

theorem regRead_cstout_toNat (s : State) : (regRead .cstout s).toNat = s.outMax.toNat * 256 + s.outMin.toNat :=
  (threeBytes_toNat (0#16) s.outMax s.outMin).trans (by simp)

theorem regRead_cstsrc_toNat (s : State) : (regRead .cstsrc s).toNat = s.srcMax.toNat * 256 + s.srcMin.toNat :=
  (threeBytes_toNat (0#16) s.srcMax s.srcMin).trans (by simp)

theorem regRead_cstobs_toNat (s : State) :
    (regRead .cstobs s).toNat = s.obsValid.toNat * 65536 + s.obsMax.toNat * 256 + s.obsMin.toNat := by
  refine (threeBytes_toNat (0#15 ++ BitVec.ofBool s.obsValid) s.obsMax s.obsMin).trans ?_
  rw [toNat_concat]
  simp [BitVec.toNat_ofBool]

end Sys2Proof.Machine
end

