-- ==== Sys2Proof/Tests/Slice0.lean ====
section
/-! SUPPORT. Tests, with expected values from spec/95_test_vectors.md and the rules it cites, and for every statement
with hypotheses a witness that meets them. -/

namespace Sys2Proof.Tests

open Sys2Proof.Machine

/-! ### Well-formedness: one ill-formed term for each check (30_encoding.md R68) -/

theorem test_wf_refuses_selector_without_chen :
    (Instr.sadd { perch := false, chen := false, chsel := 1#2, inplace := false }).wellFormed = false := by decide

theorem test_wf_refuses_inplace_without_chen :
    (Instr.sdiv { perch := false, chen := false, chsel := 0#2, inplace := true }).wellFormed = false := by decide

theorem test_wf_takes_selector_in_place :
    (Instr.smul { perch := true, chen := true, chsel := 3#2, inplace := true }).wellFormed = true := by decide

/-! ### Decoding: words written out from the bit diagram of R65 and the examples of R73 -/

/-- SADD, no modifier. -/
theorem test_decode_sadd :
    decode 0x00000001#32 = .ok (.sadd { perch := false, chen := false, chsel := 0#2, inplace := false }) := by rfl

/-- SADD ch=3, inplace: OP 1, CHEN bit 5, CHSEL 3 at bits 7:6, INPLACE bit 8. -/
theorem test_decode_sadd_fields :
    decode 0b00000000000000000000000111100001#32
      = .ok (.sadd { perch := false, chen := true, chsel := 3#2, inplace := true }) := by rfl

/-- SSUB ch=2: OP 2, CHEN bit 5, CHSEL 2 at bits 7:6. -/
theorem test_decode_ssub :
    decode 0b00000000000000000000000010100010#32
      = .ok (.ssub { perch := false, chen := true, chsel := 2#2, inplace := false }) := by rfl

/-- SMUL perch: OP 3, PERCH bit 4. -/
theorem test_decode_smul :
    decode 0b00000000000000000000000000010011#32
      = .ok (.smul { perch := true, chen := false, chsel := 0#2, inplace := false }) := by rfl

/-- SDIV ch=1, perch: OP 4, PERCH bit 4, CHEN bit 5, CHSEL 1 at bits 7:6. -/
theorem test_decode_sdiv :
    decode 0b00000000000000000000000001110100#32
      = .ok (.sdiv { perch := true, chen := true, chsel := 1#2, inplace := false }) := by rfl

theorem test_decode_gamma : decode 0x00000005#32 = .ok .gamma := by rfl

theorem test_decode_cstr : decode 0x00000006#32 = .ok (.cstr false) := by rfl

/-- CSTR explicit: OP 6, EXPL bit 9. -/
theorem test_decode_cstr_explicit : decode 0b00000000000000000000001000000110#32 = .ok (.cstr true) := by rfl

theorem test_decode_bplane : decode 0x00000007#32 = .ok .bplane := by rfl

/-- The illegal words of 95_test_vectors.md section 2.1, each refused by the clause of R68 it breaks. -/
theorem test_decode_refuses :
    decode 0x00000000#32 = .error .reservedOpcode ∧ decode 0x00000008#32 = .error .reservedOpcode
    ∧ decode 0x0000000F#32 = .error .reservedOpcode ∧ decode 0x00000041#32 = .error .selectorWithoutChen
    ∧ decode 0x00000101#32 = .error .inplaceWithoutChen ∧ decode 0x00000201#32 = .error .explOnSat
    ∧ decode 0x00000015#32 = .error .unusedFlag ∧ decode 0x00000216#32 = .error .unusedFlag
    ∧ decode 0x00000207#32 = .error .unusedFlag ∧ decode 0x00000400#32 = .error .reservedBits
    ∧ decode 0x80000001#32 = .error .reservedBits := by
  refine ⟨rfl, rfl, rfl, rfl, rfl, rfl, rfl, rfl, rfl, rfl, rfl⟩

theorem test_table_word : decodeTableWord 32 0x206 = some (.cstr true) ∧ decodeTableWord 32 0x8 = none := by
  exact ⟨rfl, rfl⟩

/-- The assembler's example words (R73). -/
theorem test_assembler :
    assemble .sadd [.ch 0#2, .inplace] = some 0x00000121#32 ∧ assemble .cstr [.explicit] = some 0x00000206#32
    ∧ assemble .sadd [.inplace] = none ∧ assemble .gamma [.perch] = none := by decide

/-! ### One command on a small state (95_test_vectors.md section 2) -/

/-- 4096 bytes of sample RAM with some of them written. -/
def ramOf (cells : List Host.Cell) : Memory := { cells := cells, draw := 0, topWord := 1023 }

/-- Reset registers, one RGB pixel (200, 80, 10) at offset 0, destination 0x100, every operand 100. -/
def pixel : State :=
  { State.reset with
    ram := ramOf [(0, 200#8), (1, 80#8), (2, 10#8)], width := 1#16, height := 1#16, channels := 3#4, dst := 0x100#32
    opnd0 := 100#32, opnd1 := 100#32, opnd2 := 100#32 }

/-- Reset registers, three gray samples at offset 0, destination 0x100. -/
def gray (a b c : Byte) : State :=
  { pixel with ram := ramOf [(0, a), (1, b), (2, c)], width := 3#16, channels := 1#4 }

/-- The state a step ends in. -/
def nextOf (o : Host.Outcome State Fault Refusal) : Option State :=
  match o with
  | .next t => some t
  | .fault _ => none
  | .refused _ => none

/-- The machine after it executes command word `w`. -/
def runWord (w : Word) (s : State) : Option State := nextOf (step (placeCommand w s))

/-- What the command leaves at three offsets from `a`, and in STATUS. -/
def seen (a : Nat) (o : Option State) : Option (Byte × Byte × Byte × Word) :=
  o.map fun t => (t.byte a, t.byte (a + 1), t.byte (a + 2), statusWord t)

/-- `SADD` with operand 100. -/
theorem test_sadd_saturates : seen 0x100 (runWord 0x01#32 pixel) = some (255#8, 180#8, 110#8, 2#32) := by
  decide +kernel

/-- `SADD perch`, operands 100, 10, 0. -/
theorem test_sadd_per_channel :
    seen 0x100 (runWord 0x11#32 { pixel with opnd1 := 10#32, opnd2 := 0#32 }) = some (255#8, 90#8, 10#8, 2#32) := by
  decide +kernel

/-- `SSUB ch=2`. -/
theorem test_ssub_selected : seen 0x100 (runWord 0xA2#32 pixel) = some (200#8, 80#8, 0#8, 2#32) := by decide +kernel

/-- `SSUB ch=1, inplace`. -/
theorem test_ssub_in_place : seen 0 (runWord 0x162#32 pixel) = some (200#8, 0#8, 10#8, 2#32) := by decide +kernel

/-- SMUL by 0.5: the ties 0.5 and 1.5 round up. -/
theorem test_smul_ties :
    seen 0x100 (runWord 0x03#32 { gray 1#8 3#8 2#8 with opnd0 := 0x8000#32 }) = some (1#8, 2#8, 1#8, 2#32) := by
  decide +kernel

/-- SMUL by 2.0: 256 saturates. -/
theorem test_smul_saturates :
    seen 0x100 (runWord 0x03#32 { gray 128#8 127#8 0#8 with opnd0 := 0x20000#32 })
      = some (255#8, 254#8, 0#8, 2#32) := by decide +kernel

/-- SDIV by 2.0. -/
theorem test_sdiv_ties :
    seen 0x100 (runWord 0x04#32 { gray 1#8 5#8 4#8 with opnd0 := 0x20000#32 }) = some (1#8, 3#8, 2#8, 2#32) := by
  decide +kernel

/-- SDIV by 0: DOMAIN, code 1. -/
theorem test_sdiv_zero :
    (runWord 0x04#32 { gray 1#8 5#8 4#8 with opnd0 := 0#32 }).map (fun t => (t.ram, statusWord t))
      = some (ramOf [(0, 1#8), (1, 5#8), (2, 4#8)], 0x102#32) := by decide +kernel

/-- GAMMA with γ = 0.5, c = 1. -/
theorem test_gamma_half :
    seen 0x100 (runWord 0x05#32 { gray 64#8 128#8 254#8 with gamma := 0x8000#32 })
      = some (128#8, 181#8, 254#8, 2#32) := by decide +kernel

/-- GAMMA with γ = 1, c = 0.5: three ties round up. -/
theorem test_gamma_ties :
    seen 0x100 (runWord 0x05#32 { gray 255#8 1#8 127#8 with gamma := 0x10000#32, gainc := 0x8000#32 })
      = some (128#8, 1#8, 64#8, 2#32) := by decide +kernel

/-- CSTR, observed bounds 0 and 2, inverted: the tie 127.5 gives 128 (90_conflicts.md C2). -/
theorem test_cstr_observed :
    (runWord 0x06#32 { gray 1#8 0#8 2#8 with outMin := 255#8 }).map
        (fun t => (t.byte 0x100, t.byte 0x101, t.byte 0x102, regRead .cstobs t))
      = some (128#8, 255#8, 0#8, 0x10200#32) := by decide +kernel

/-- CSTR explicit with SRCMIN above SRCMAX, clamped both ways. -/
theorem test_cstr_explicit :
    seen 0x100 (runWord 0x206#32 { gray 150#8 250#8 50#8 with outMax := 255#8, srcMin := 200#8, srcMax := 100#8 })
      = some (128#8, 0#8, 255#8, 2#32) := by decide +kernel

/-- BPLANE of 0xA5, 0x01, 0x80: planes 0 and 7. -/
theorem test_bplane_low : seen 0x100 (runWord 0x07#32 (gray 0xA5#8 1#8 0x80#8)) = some (255#8, 255#8, 0#8, 2#32) := by
  decide +kernel

theorem test_bplane_high :
    seen (0x100 + 7 * 3) (runWord 0x07#32 (gray 0xA5#8 1#8 0x80#8)) = some (255#8, 0#8, 255#8, 2#32) := by
  decide +kernel

/-- `withFetchWord` places the command the very next step runs. -/
theorem test_fetch_word : step (State.reset.withFetchWord 32 0x206) =
    exec (.cstr true) { accept 0x206#32 State.reset with agenda := [] } := by rfl

/-- A little-endian write and a misaligned one (95_test_vectors.md section 2.7). -/
theorem test_bus_bytes :
    (hostAccess { offset := 0x1000001#25, size := .one, access := .read }
      (hostAccess { offset := 0x1000000#25, size := .four, access := .write 0x11223344#32 } pixel).1).2
      = .okRead 0x33#32
    ∧ (hostAccess { offset := 0x0E#25, size := .four, access := .write 1#32 } pixel).2 = .error := by decide +kernel

/-! ### Witnesses: every statement's hypotheses are met somewhere -/

/-- `SADD` as a term. -/
def plain : SatMods := { perch := false, chen := false, chsel := 0#2, inplace := false }
/-- `ch=1, inplace, perch`. -/
def inPlaceOne : SatMods := { perch := true, chen := true, chsel := 1#2, inplace := true }
/-- The pixel with command word `w` in flight. -/
def flying (w : Word) : State := { pixel with cmd := w, busy := true }

theorem witness_DecodeInvertsEncode : (Instr.sadd inPlaceOne).wellFormed = true ∧ (Instr.cstr true).wellFormed = true := by
  decide

theorem witness_EncodeInvertsDecode : decode 0x171#32 = .ok (.sadd inPlaceOne) := by rfl

theorem witness_DecoderTakesExactlyTheLegalWords :
    (∃ i, decode 0x1E1#32 = .ok i) ∧ (∃ i, decode 0x206#32 = .ok i) ∧ ¬ ∃ i, decode 0x15#32 = .ok i :=
  ⟨⟨_, rfl⟩, ⟨_, rfl⟩, fun ⟨_, h⟩ => nomatch h⟩

theorem witness_AssemblerEmitsOnlyLegalWords : assemble .ssub [.ch 2#2, .perch] = some 0xB2#32 := by decide

theorem witness_StepRunsTheDecodedCommand :
    ∃ s : State, s.busy = true ∧ decode s.cmd = .ok .bplane ∧ s.agenda = [.engine]
      ∧ ({ s with agenda := [] } : State).agenda = [] :=
  ⟨{ flying 7#32 with agenda := [.engine] }, rfl, rfl, rfl, rfl⟩

/-- On the agenda's engine turn, and with the agenda used up. -/
theorem witness_IllegalWordRaisesIllegalCmd :
    ∃ s u : State, s.busy = true ∧ (∀ i, decode s.cmd ≠ .ok i) ∧ s.agenda = []
      ∧ u.busy = true ∧ (∀ i, decode u.cmd ≠ .ok i) ∧ u.agenda = [.engine] :=
  ⟨flying 8#32, { flying 8#32 with agenda := [.engine] }, rfl, (fun _ h => nomatch h), rfl, rfl,
    (fun _ h => nomatch h), rfl⟩

theorem witness_IdleEngineDoesNothing : ∃ s t : State, s.busy = false ∧ s.agenda = [.engine]
    ∧ t.busy = false ∧ t.agenda = [] := ⟨{ pixel with agenda := [.engine] }, pixel, rfl, rfl, rfl, rfl⟩

theorem witness_HostStepPerformsTheTransaction :
    ∃ s : State, s.agenda = [.bus { offset := 0#25, size := .four, access := .read }] :=
  ⟨{ pixel with agenda := [r32 0#25] }, rfl⟩

theorem witness_AcceptanceStoresTheWordAndSetsBusy : pixel.busy = false ∧ (flying 7#32).busy = true := ⟨rfl, rfl⟩

/-- For SADD, SSUB and SMUL: out of place with the last source and output bytes of sample RAM, and in place. -/
theorem witness_SatOk :
    pixel.SatOk plain ∧ ({ pixel with dst := 4093#32 } : State).SatOk plain
      ∧ ({ pixel with src := 4093#32 } : State).SatOk plain ∧ pixel.SatOk inPlaceOne := by decide +kernel

theorem witness_SdivWritesRoundedQuotients :
    (pixel.SatOk plain ∧ pixel.OperandsNonzero plain) ∧ (pixel.SatOk inPlaceOne ∧ pixel.OperandsNonzero inPlaceOne) := by
  refine ⟨⟨by decide +kernel, by decide, by decide, fun h => nomatch h⟩,
    by decide +kernel, by decide, by decide, fun _ h => nomatch h⟩

theorem witness_ChannelSelectorIsolatesChannels :
    pixel.SatOk inPlaceOne ∧ pixel.OperandsNonzero inPlaceOne ∧ inPlaceOne.chen = true
      ∧ 0 < pixel.height.toNat * pixel.width.toNat * pixel.channels.toNat
      ∧ 0 % pixel.channels.toNat ≠ inPlaceOne.chsel.toNat :=
  ⟨by decide +kernel, ⟨by decide, by decide, fun _ h => nomatch h⟩, rfl, by decide, by decide⟩

theorem witness_SampleFunctionsAreMonotone : (3#8).toNat ≤ (255#8).toNat ∧ (1#32 : Word) ≠ 0#32 := by decide

theorem witness_SampleFunctionsMoveOneWay :
    65536 ≤ (65536#32).toNat ∧ 0 < (1#32).toNat ∧ (1#32).toNat ≤ 65536 ∧ (65536#32).toNat ≤ 65536 := by decide

theorem witness_GammaWritesTheExactPowerLaw :
    ∃ s : State, s.FormatOk ∧ s.SourceOk ∧ s.OutputOk (s.height.toNat * s.width.toNat * s.channels.toNat)
      ∧ s.gamma ≠ 0#32 ∧ s.gainc ≠ 0#32 := by
  refine ⟨{ pixel with gamma := 1#32 }, ?_⟩
  decide +kernel

theorem witness_GammaFixedPoints : (0xFFFFFFFF#32 : Word) ≠ 0#32 ∧ (1#32 : Word) ≠ 0#32 := by decide

theorem witness_GammaIsMonotone : (1#32 : Word) ≠ 0#32 ∧ (0#8).toNat ≤ (1#8).toNat := by decide

theorem witness_GammaBrightensOrDarkens :
    ((65535#32 : Word) ≠ 0#32 ∧ (65535#32).toNat < 65536 ∧ 65536 ≤ (65536#32).toNat)
    ∧ ((65537#32 : Word) ≠ 0#32 ∧ 65536 < (65537#32).toNat ∧ (65536#32).toNat ≤ 65536) := by decide

theorem witness_ObservedStretchMapsEverySample :
    ∃ s : State, s.FormatOk ∧ s.SourceOk ∧ s.OutputOk (s.height.toNat * s.width.toNat * s.channels.toNat)
      ∧ s.Observed 10#8 200#8 ∧ (10#8 : Byte) ≠ 200#8 :=
  ⟨pixel, by decide, by decide +kernel, by decide +kernel,
    ⟨⟨2, by decide, rfl⟩, ⟨0, by decide, rfl⟩, by
      intro i hi
      replace hi : i < 3 := hi
      interval_cases i <;> decide +kernel⟩, by decide⟩

theorem witness_ExplicitStretchMapsEverySample :
    ∃ s : State, s.FormatOk ∧ s.SourceOk ∧ s.OutputOk (s.height.toNat * s.width.toNat * s.channels.toNat)
      ∧ s.srcMin ≠ s.srcMax :=
  ⟨{ pixel with srcMin := 200#8, srcMax := 100#8 }, by decide, by decide +kernel, by decide +kernel, by decide⟩

/-- Observed: three equal samples. Explicit: the reset bounds, both 0. -/
theorem witness_DegenerateStretchFillsWithOutMin :
    ∃ s : State, s.FormatOk ∧ s.SourceOk ∧ s.OutputOk (s.height.toNat * s.width.toNat * s.channels.toNat)
      ∧ s.Observed 100#8 100#8 ∧ s.srcMin = s.srcMax :=
  ⟨gray 100#8 100#8 100#8, by decide, by decide +kernel, by decide +kernel,
    ⟨⟨0, by decide, rfl⟩, ⟨0, by decide, rfl⟩, by
      intro i hi
      replace hi : i < 3 := hi
      interval_cases i <;> decide +kernel⟩, rfl⟩

theorem witness_StretchEndpointsAreExact : (50#8 : Byte) ≠ 200#8 := by decide

theorem witness_StretchKeepsOrInvertsOrder :
    (50#8).toNat < (200#8).toNat ∧ (0#8).toNat ≤ (255#8).toNat ∧ (0#8).toNat < (255#8).toNat := by decide

/-- BplaneWritesEightPlanes and BitPlanesReconstructTheSource: the planes end with the last byte of sample RAM. -/
theorem witness_Bplane :
    ∃ s : State, s.FormatOk ∧ s.channels = 1#4 ∧ s.SourceOk ∧ s.OutputOk (8 * (s.height.toNat * s.width.toNat))
      ∧ s.dst.toNat + 8 * (s.height.toNat * s.width.toNat) = s.sramBytes := by
  refine ⟨{ gray 0xA5#8 1#8 0x80#8 with dst := 4072#32 }, ?_⟩
  decide +kernel

/-- One command and state for each clause of FirstFailingCheckIsReported: a broken word; W = 0; a selected channel that
the buffer lacks; a source one byte past the end; an operand 0; nothing wrong. -/
theorem witness_FirstFailingCheckIsReported :
    FailsLegality (.sadd { plain with inplace := true })
    ∧ (¬ FailsLegality .gamma ∧ ¬ ({ pixel with width := 0#16 } : State).FormatOk)
    ∧ (¬ FailsLegality .bplane ∧ pixel.FormatOk ∧ FailsShape .bplane pixel)
    ∧ (¬ FailsShape (.cstr false) { pixel with src := 4094#32 } ∧ FailsRanges (.cstr false) { pixel with src := 4094#32 })
    ∧ (¬ FailsShape .gamma pixel ∧ ¬ FailsRanges .gamma pixel ∧ FailsDomain .gamma pixel)
    ∧ (¬ FailsRanges (.cstr false) pixel ∧ ¬ FailsDomain (.cstr false) pixel) := by
  have noMods : ∀ i : Instr, satModsOf i = none → ¬ FailsLegality i := by
    rintro i h ⟨m, hm, -⟩
    rw [h] at hm
    nomatch hm
  have inBounds : ∀ i : Instr, i ≠ .bplane → ¬ FailsRanges i pixel := by
    intro i hi
    have hn : pixel.height.toNat * pixel.width.toNat * pixel.channels.toNat = 3 := by decide
    have hb : pixel.sramBytes = 4096 := by decide +kernel
    have hs : pixel.src.toNat = 0 := by decide
    have hd : pixel.dst.toNat = 256 := by decide
    simp [FailsRanges, hi, hn, hb, hs, hd]
  refine ⟨⟨_, rfl, rfl, .inr rfl⟩, ⟨noMods _ rfl, by decide⟩, ⟨noMods _ rfl, by decide, .inr ⟨rfl, by decide⟩⟩,
    ⟨?_, .inl (by decide +kernel)⟩, ⟨?_, inBounds _ (by decide), .inr ⟨rfl, .inl rfl⟩⟩, inBounds _ (by decide), ?_⟩
  · rintro (⟨m, hm, -⟩ | ⟨h, -⟩)
    · nomatch hm
    · nomatch h
  · rintro (⟨m, hm, -⟩ | ⟨h, -⟩)
    · nomatch hm
    · nomatch h
  · rintro (⟨m, hm, -⟩ | ⟨h, -⟩)
    · nomatch hm
    · nomatch h

theorem witness_FailedCommandHasNoOtherEffect : ∃ t, exec .gamma pixel = .next t ∧ t.err ≠ 0#4 :=
  ⟨raiseError .domain pixel, by rfl, by decide⟩

/-- CommandsChangeOnlyTheirResults and CommandsWriteOnlyTheirOutputRange: a command that ends well; offsets just
outside the output range of each form. -/
theorem witness_CommandsChangeOnlyTheirResults :
    (∃ t, exec (.sadd plain) pixel = .next t ∧ t.err = 0#4)
    ∧ ¬ OutputOffset (.sadd inPlaceOne) pixel 0
    ∧ ¬ OutputOffset (.sadd plain) pixel 0xFF ∧ ¬ OutputOffset (.cstr true) pixel 0x103
    ∧ ¬ OutputOffset .bplane pixel 0x108 := by
  refine ⟨?_, ?_, ?_, ?_, ?_⟩
  · have h : ∃ t, nextOf (exec (.sadd plain) pixel) = some t ∧ t.err = 0#4 := ⟨_, rfl, by decide +kernel⟩
    obtain ⟨t, ht, he⟩ := h
    refine ⟨t, ?_, he⟩
    cases hx : exec (.sadd plain) pixel with
    | next u => rw [hx] at ht; exact congrArg _ (Option.some.inj ht)
    | fault r => rw [hx] at ht; nomatch ht
    | refused r => rw [hx] at ht; nomatch ht
  · rintro ⟨n, -, hm, ha⟩
    have : n = 0 := by
      have : pixel.src.toNat = 0 := by decide
      omega
    subst this
    exact absurd hm (by decide)
  all_goals simp [OutputOffset, pixel, plain, InRange]

/-- The same source with another byte in the output range. -/
theorem witness_ResultDependsOnlyOnParametersAndSource :
    ∃ s s' : State, SameInputs s s' ∧ s ≠ s' := by
  refine ⟨pixel, { pixel with ram := ramOf [(0, 200#8), (1, 80#8), (2, 10#8), (0x100, 7#8)] },
    ⟨rfl, rfl, rfl, rfl, rfl, rfl, rfl, rfl, rfl, rfl, rfl, rfl, rfl, rfl, rfl, ?_⟩, ?_⟩
  · intro i hi
    replace hi : i < 3 := hi
    interval_cases i <;> rfl
  · intro h
    have := congrArg (fun s : State => s.ram.cells.length) h
    simp [pixel, ramOf] at this

/-- Three samples in another order; and the 24 turns of BPLANE over them, sample by sample instead of plane by plane. -/
theorem witness_SampleOrderIsNotObservable :
    pixel.ram.wf ∧ [2, 0, 1].Perm (List.range 3) ∧ 0 + 3 ≤ pixel.ram.bytes ∧ 0x100 + 3 ≤ pixel.ram.bytes
      ∧ 0 + 3 ≤ 0x100
      ∧ (gray 0#8 0#8 0#8).height.toNat * (gray 0#8 0#8 0#8).width.toNat = 3
      ∧ (((List.range 3).product (List.range 8)).map fun p => (p.2, p.1)).Perm ((List.range 8).product (List.range 3))
      ∧ 0x100 + 8 * 3 ≤ pixel.ram.bytes := by decide +kernel

theorem witness_EveryStepKeepsTheInvariant : ∃ s t : State, s.Inv ∧ step s = .next t ∧ t ≠ s := by
  refine ⟨{ pixel with agenda := [.engine] }, pixel, by decide +kernel, rfl, ?_⟩
  intro h
  have := congrArg (fun s : State => s.agenda.length) h
  simp [pixel, State.reset] at this

theorem witness_CanonicalMemoryIsUnique : pixel.ram.wf ∧ (ramOf []).wf := by decide +kernel

theorem witness_BothResetsGiveTheResetValues :
    (2#32 : Word).getLsbD 1 = true ∧ ({ flying 5#32 with agenda := [.powerOn] } : State).agenda = [.powerOn] :=
  ⟨by decide, rfl⟩

/-- Idle; a command in flight that would end well, one that would fail (GAMMA with GAMMA = 0), one whose range ends past
sample RAM, each with an offset of its output range and one beside it; and an illegal word. -/
theorem witness_SoftResetAbortsTheCommandInFlight :
    (2#32 : Word).getLsbD 1 = true ∧ pixel.busy = false
    ∧ ((flying 1#32).busy = true ∧ decode (flying 1#32).cmd = .ok (.sadd plain)
      ∧ OutputOffset (.sadd plain) (flying 1#32) 0x102 ∧ ¬ OutputOffset (.sadd plain) (flying 1#32) 0x103)
    ∧ (decode (flying 5#32).cmd = .ok .gamma ∧ validate .gamma (flying 5#32) = some .domain
      ∧ OutputOffset .gamma (flying 5#32) 0x100 ∧ ¬ OutputOffset .gamma (flying 5#32) 0xFF)
    ∧ (OutputOffset .gamma { flying 5#32 with dst := 4095#32 } 4095 ∧ 4095 < (flying 5#32).sramBytes
      ∧ OutputOffset .gamma { flying 5#32 with dst := 4095#32 } 4096 ∧ ¬ 4096 < (flying 5#32).sramBytes)
    ∧ ∀ i, decode (flying 8#32).cmd ≠ .ok i := by
  refine ⟨by decide, rfl, ⟨rfl, rfl, ?_, ?_⟩, ⟨rfl, by rfl, ?_, ?_⟩, ⟨?_, by decide +kernel, ?_, by decide +kernel⟩,
    fun _ h => nomatch h⟩ <;> simp [OutputOffset, flying, pixel, plain, InRange]

/-- A soft reset frees the output range of a command that would fail too (70_reset_and_hazards.md R128), and none for an
illegal word. -/
theorem test_abort_of_failing_command :
    abortedAddrs (some .gamma) (flying 5#32) = [0x100, 0x101, 0x102]
    ∧ abortedAddrs (some .gamma) { flying 5#32 with dst := 4095#32 } = [4095]
    ∧ abortedAddrs (some (.sadd inPlaceOne)) (flying 0x171#32) = [1]
    ∧ abortedAddrs none (flying 8#32) = [] ∧ abortedAddrs (some .gamma) pixel = [] := by decide +kernel

theorem witness_PowerOnLeavesRamUnspecified : ({ pixel with agenda := [.powerOn] } : State).agenda = [.powerOn] := rfl

/-- An aligned 1-byte access at the last register byte; a misaligned 4-byte one in sample RAM. -/
theorem witness_BusErrorsAreExactly :
    (hostAccess { offset := 0xFF#25, size := .one, access := .read } pixel).2 = .error
    ∧ (hostAccess { offset := 0x1000002#25, size := .four, access := .read } pixel).2 = .error
    ∧ (hostAccess { offset := 0x100#25, size := .one, access := .read } pixel).2 = .okRead 0#32 := by decide +kernel

/-- The first and the last reserved register, and the ends of the two reserved regions. -/
theorem witness_ReservedRegistersReadZeroAndIgnoreWrites :
    (0x44 ≤ (0x44#25).toNat ∧ (0x44#25).toNat % 4 = 0) ∧ ((0xFC#25).toNat ≤ 0xFC ∧ (0xFC#25).toNat % 4 = 0)
    ∧ (0x100 ≤ (0x100#25).toNat ∧ (0x100#25).toNat % sizeBytes .four = 0)
    ∧ ((0xFFFFFF#25).toNat ≤ 0xFFFFFF ∧ (0xFFFFFF#25).toNat % sizeBytes .one = 0)
    ∧ (0x1000000 + pixel.sramBytes ≤ (0x1001000#25).toNat ∧ (0x1001000#25).toNat % sizeBytes .two = 0) := by
  decide +kernel

theorem witness_ParameterRegistersReadBack : pixel.busy = false := rfl

/-- A parameter register, CTRL without SRST and the last register, while idle; STATUS beside a parameter write. -/
theorem witness_RegisterWritesLeaveOtherRegisters :
    RegisterOffset 0x18#25 ∧ RegisterOffset 0x08#25 ∧ RegisterOffset 0x40#25 ∧ RegisterOffset 0x0C#25
    ∧ (0x18#25 : BitVec 25) ≠ 0x0C#25 ∧ (1#32 : Word).getLsbD 1 = false
    ∧ (0x18#25 : BitVec 25) ≠ 0x10#25 ∧ pixel.busy = false := by decide

theorem witness_ControlWriteSetsInterruptEnable :
    (1#32 : Word).getLsbD 1 = false ∧ (0xFFFFFFFD#32 : Word).getLsbD 1 = false := by
  decide

theorem witness_BusyDropsRegisterWrites :
    (flying 1#32).busy = true ∧ (0x10 ≤ (0x10#25).toNat ∧ (0x10#25).toNat % 4 = 0)
    ∧ (0x3C#25).toNat ≤ 0x3C ∧ (0x3C#25).toNat % 4 = 0 := by decide

theorem witness_InterruptFollowsDoneAndEnable :
    (2#32 : Word).getLsbD 1 = true ∧ (2#32 : Word).getLsbD 0 = false ∧ pixel.busy = false
    ∧ irq { pixel with done := true, ie := true } = true
    ∧ ({ pixel with agenda := [.powerOn] } : State).agenda = [.powerOn] := by decide

/-- RamWriteIsLittleEndian, RamReadIsLittleEndian, RamWhileBusyIsOpaque: the first word and the last byte. -/
theorem witness_RamAccess :
    pixel.busy = false ∧ (flying 1#32).busy = true
    ∧ ((0x1000000#25).toNat = 0x1000000 + 0 ∧ 0 % sizeBytes .four = 0 ∧ 0 + sizeBytes .four ≤ pixel.sramBytes)
    ∧ ((0x1000FFF#25).toNat = 0x1000000 + 4095 ∧ 4095 % sizeBytes .one = 0 ∧ 4095 + sizeBytes .one ≤ pixel.sramBytes) := by
  decide +kernel

theorem witness_ReadsHaveNoSideEffect : (BusTxn.mk 0xC#25 .four .read).access = .read := rfl

theorem witness_DoneRisesOnlyAtCompletion :
    ∃ s t : State, step s = .next t ∧ s.done = false ∧ t.done = true :=
  ⟨flying 5#32, raiseError .domain (flying 5#32), by rfl, rfl, rfl⟩

/-- BUSY rises by a write to CMD and falls by the engine, by power-on reset and by soft reset. -/
theorem witness_BusyFollowsAcceptanceAndCompletion :
    (∃ s t : State, step s = .next t ∧ s.busy = false ∧ t.busy = true)
    ∧ (∃ s t : State, step s = .next t ∧ s.busy = true ∧ t.busy = false ∧ nextEvent s = .engine)
    ∧ (∃ s t : State, step s = .next t ∧ s.busy = true ∧ t.busy = false ∧ nextEvent s = .powerOn)
    ∧ ∃ s t : State, step s = .next t ∧ s.busy = true ∧ t.busy = false ∧ nextEvent s = w32 0x8#25 2#32 :=
  ⟨⟨{ pixel with agenda := [w32 0x10#25 5#32] }, hostTurn _ pixel, rfl, rfl, by decide +kernel⟩,
    ⟨flying 5#32, raiseError .domain (flying 5#32), by rfl, rfl, rfl, rfl⟩,
    ⟨{ flying 5#32 with agenda := [.powerOn] }, powerOnReset (flying 5#32), rfl, rfl, rfl, rfl⟩,
    ⟨{ flying 5#32 with agenda := [w32 0x8#25 2#32] }, hostTurn _ (flying 5#32), rfl, rfl, by decide +kernel, rfl⟩⟩

/-- CSTOBS changes by power-on reset, and by an observed CSTR. -/
theorem witness_CstobsChangesOnlyByObservedStretch :
    (∃ s t : State, step s = .next t ∧ regRead .cstobs t ≠ regRead .cstobs s)
    ∧ (nextOf (step (flying 6#32))).map (regRead .cstobs) ≠ some (regRead .cstobs (flying 6#32)) :=
  ⟨⟨{ pixel with obsMax := 1#8, obsValid := true, agenda := [.powerOn] },
    powerOnReset { pixel with obsMax := 1#8, obsValid := true }, rfl, by decide⟩, by decide +kernel⟩

theorem witness_CompliantHostNeverSetsWerr :
    ∃ s t : State, s.compliant = true ∧ step s = .next t ∧ s.werr = false ∧ s.busy = true :=
  ⟨flying 5#32, raiseError .domain (flying 5#32), by decide, by rfl, rfl, rfl⟩

/-- The last sample of a 2 by 2 RGB buffer. -/
theorem witness_SampleIndexIsABijection : sampleIndex 2 3 1 1 2 = 11 ∧ 11 < 2 * 2 * 3 := by decide

end Sys2Proof.Tests
end

section
/-! PROOF. The sample index of 00_scope.md R13 as a mixed-radix number: the channel is its last digit, in base `C`, and
the column and the row are the digits of the quotient in base `W`. -/

namespace Sys2Proof.Machine

theorem mul_add_div_of_lt {b n : Nat} (a : Nat) (h : b < n) : (a * n + b) / n = a := by
  rw [Nat.mul_comm, Nat.mul_add_div (Nat.zero_lt_of_lt h), Nat.div_eq_of_lt h, Nat.add_zero]

theorem sampleIndex_mod_channels {c k : Nat} (w r x : Nat) (hk : k < c) : sampleIndex w c r x k % c = k :=
  Nat.mul_add_mod_of_lt hk

theorem sampleIndex_div_channels {c k : Nat} (w r x : Nat) (hk : k < c) : sampleIndex w c r x k / c = r * w + x :=
  mul_add_div_of_lt _ hk

theorem sampleIndex_column {w c x k : Nat} (r : Nat) (hx : x < w) (hk : k < c) :
    sampleIndex w c r x k / c % w = x := by
  rw [sampleIndex_div_channels w r x hk, Nat.mul_add_mod_of_lt hx]

theorem sampleIndex_row {w c x k : Nat} (r : Nat) (hx : x < w) (hk : k < c) :
    sampleIndex w c r x k / c / w = r := by
  rw [sampleIndex_div_channels w r x hk, mul_add_div_of_lt r hx]

/-- Every number is the sample index that its own digits give. -/
theorem sampleIndex_of_digits (w c n : Nat) : sampleIndex w c (n / c / w) (n / c % w) (n % c) = n := by
  rw [sampleIndex, Nat.div_add_mod', Nat.div_add_mod']

theorem sampleIndex_lt {h w c r x k : Nat} (hr : r < h) (hx : x < w) (hk : k < c) :
    sampleIndex w c r x k < h * w * c := by
  have hpixel : r * w + x < h * w := by
    rw [Nat.mul_comm r]; exact Nat.mul_add_lt_mul_of_lt_of_lt hr hx
  rw [sampleIndex, Nat.mul_comm _ c]
  exact Nat.mul_add_lt_mul_of_lt_of_lt hpixel hk

theorem exists_sampleIndex_eq {h w c n : Nat} (hn : n < h * w * c) :
    ∃ r x k, r < h ∧ x < w ∧ k < c ∧ sampleIndex w c r x k = n := by
  have hpixel : n / c < h * w := Nat.div_lt_of_lt_mul (by rwa [Nat.mul_comm])
  have hrow : n / c / w < h := Nat.div_lt_of_lt_mul (by rwa [Nat.mul_comm])
  have hw : 0 < w := Nat.pos_of_lt_mul_left hpixel
  have hc : 0 < c := Nat.pos_of_lt_mul_left hn
  exact ⟨n / c / w, n / c % w, n % c, hrow, Nat.mod_lt _ hw, Nat.mod_lt _ hc, sampleIndex_of_digits w c n⟩

theorem sampleIndex_inj {w c r x k r' x' k' : Nat} (hx : x < w) (hk : k < c) (hx' : x' < w) (hk' : k' < c)
    (h : sampleIndex w c r x k = sampleIndex w c r' x' k') : r = r' ∧ x = x' ∧ k = k' := by
  refine ⟨?row, ?column, ?channel⟩
  case row => rw [← sampleIndex_row r hx hk, h, sampleIndex_row r' hx' hk']
  case column => rw [← sampleIndex_column r hx hk, h, sampleIndex_column r' hx' hk']
  case channel => rw [← sampleIndex_mod_channels w r x hk, h, sampleIndex_mod_channels w r' x' hk']

/-- Settles O59: an index's digits give back the row, the column and the channel it was made from. -/
theorem sampleIndexIsABijection : Obligations.SampleIndexIsABijection := by
  intro w h c _
  refine ⟨?bounded, ?onto, ?once⟩
  case bounded => exact fun r x k hr hx hk => ⟨sampleIndex_lt hr hx hk, sampleIndex_mod_channels w r x hk⟩
  case onto => exact fun n hn => exists_sampleIndex_eq hn
  case once => exact fun r x k r' x' k' hx hk hx' hk' => sampleIndex_inj hx hk hx' hk'

end Sys2Proof.Machine
end

section
/-! PROOF. What one transition can do, said once: a register write, a host transaction's effect on the flags, the
engine's turn and the step, each with all its cases. -/

namespace Sys2Proof.Machine

/-- `t` is `s` with other parameter registers, SRC to CSTSRC (10_state.md R27 to R35). -/
abbrev SameButParameters (s t : State) : Prop :=
  t = { s with
    src := t.src, dst := t.dst, width := t.width, height := t.height, channels := t.channels, opnd0 := t.opnd0,
    opnd1 := t.opnd1, opnd2 := t.opnd2, gamma := t.gamma, gainc := t.gainc, outMin := t.outMin, outMax := t.outMax,
    srcMin := t.srcMin, srcMax := t.srcMax }

/-- While busy a write to CMD or a parameter register is dropped (10_state.md R21 (b)). -/
theorem regWrite_of_frozen {r : Reg} {s : State} (hb : s.busy = true) (hr : frozenWhileBusy r = true) (w : Word) :
    regWrite r w s = dropWrite s := by simp [regWrite, hb, hr]

/-- Every other write is performed (10_state.md R21). -/
theorem regWrite_of_not_frozen {r : Reg} {s : State} (h : s.busy = true → frozenWhileBusy r = false) (w : Word) :
    regWrite r w s = storeReg r w s := by
  unfold regWrite
  cases hb : s.busy
  · rfl
  · rw [h hb]; rfl

/-- Everything a register write can do (10_state.md R21): nothing, set WERR while busy, reach CTRL or STATUS at any
time, issue a command or store a parameter while idle. -/
theorem regWrite_cases (r : Reg) (w : Word) (s : State) :
    (r ∈ [.id, .sramsz, .cstobs] ∧ regWrite r w s = s)
    ∨ (s.busy = true ∧ frozenWhileBusy r = true ∧ regWrite r w s = dropWrite s)
    ∨ (r = .ctrl ∧ regWrite r w s = writeCtrl w s)
    ∨ (r = .status ∧ regWrite r w s = clearStatus w s)
    ∨ (r = .cmd ∧ s.busy = false ∧ regWrite r w s = accept w s)
    ∨ (s.busy = false ∧ SameButParameters s (regWrite r w s)) := by
  by_cases hdrop : s.busy = true ∧ frozenWhileBusy r = true
  · exact .inr (.inl ⟨hdrop.1, hdrop.2, regWrite_of_frozen hdrop.1 hdrop.2 w⟩)
  · have hidle : frozenWhileBusy r = true → s.busy = false := by
      intro hr; simpa [hr] using hdrop
    rw [regWrite_of_not_frozen (by simpa using hdrop)]
    cases r with
    | id | sramsz | cstobs => exact .inl ⟨by decide, rfl⟩
    | ctrl => exact .inr (.inr (.inl ⟨rfl, rfl⟩))
    | status => exact .inr (.inr (.inr (.inl ⟨rfl, rfl⟩)))
    | cmd => exact .inr (.inr (.inr (.inr (.inl ⟨rfl, hidle rfl, rfl⟩))))
    | src | dst | dims | fmt | opnd0 | opnd1 | opnd2 | gamma | gainc | cstout | cstsrc =>
      exact .inr (.inr (.inr (.inr (.inr ⟨hidle rfl, rfl⟩))))

/-- A CTRL write, by its SRST bit (10_state.md R24). -/
theorem writeCtrl_of_srst {w : Word} (h : w.getLsbD 1 = true) (s : State) :
    writeCtrl w s = softReset (decode s.cmd).toOption s := if_pos h

theorem writeCtrl_of_not_srst {w : Word} (h : w.getLsbD 1 = false) (s : State) :
    writeCtrl w s = { s with ie := w.getLsbD 0 } := by rw [writeCtrl, h]; rfl

/-- Everything the engine's turn can do (30_encoding.md R71). -/
theorem engineTurn_cases {s t : State} (h : engineTurn s = .next t) :
    (s.busy = false ∧ t = s)
    ∨ (s.busy = true ∧ t = complete (some .illegalCmd) s)
    ∨ (s.busy = true ∧ ∃ i, decode s.cmd = .ok i ∧ exec i s = .next t) := by
  unfold engineTurn at h
  cases hb : s.busy
  · simp only [hb, Bool.false_eq_true, if_false, Host.Outcome.next.injEq] at h
    exact .inl ⟨rfl, h.symm⟩
  · cases hd : decode s.cmd with
    | error e =>
      simp only [hb, hd, if_true, Host.Outcome.next.injEq] at h
      exact .inr (.inl ⟨rfl, h.symm⟩)
    | ok i =>
      simp only [hb, hd, if_true] at h
      exact .inr (.inr ⟨rfl, i, rfl, h⟩)

/-- Everything a step can do: the first event's move, or with no event left the engine's. -/
theorem step_cases {s t : State} (h : step s = .next t) :
    (∃ x, nextEvent s = .bus x ∧ t = hostTurn x (popEvent s))
    ∨ (nextEvent s = .engine ∧ engineTurn (popEvent s) = .next t)
    ∨ (nextEvent s = .powerOn ∧ t = powerOnReset (popEvent s)) := by
  unfold step at h
  cases hn : nextEvent s with
  | bus x =>
    rw [hn, takeTurn, Host.Outcome.next.injEq] at h
    exact .inl ⟨x, rfl, h.symm⟩
  | engine =>
    rw [hn] at h
    exact .inr (.inl ⟨rfl, h⟩)
  | powerOn =>
    rw [hn, takeTurn, Host.Outcome.next.injEq] at h
    exact .inr (.inr ⟨rfl, h.symm⟩)

end Sys2Proof.Machine
end

section
/-! PROOF. The invariant of the machine, operation by operation. -/

namespace Sys2Proof.Machine

/-- The invariant reads no parameter register. -/
theorem inv_of_sameButParameters {s t : State} (h : SameButParameters s t) (hs : s.Inv) : t.Inv := by
  rw [h]; exact hs

theorem inv_accept {s : State} (w : Word) (hs : s.Inv) : (accept w s).Inv := by
  obtain ⟨hwf, -, -, -, hobs, hvalid, hdraw⟩ := hs
  exact ⟨hwf, by simp, fun _ => rfl, fun _ => ⟨rfl, rfl, rfl⟩, hobs, hvalid, hdraw⟩

theorem inv_clearStatus {s : State} (w : Word) (hs : s.Inv) : (clearStatus w s).Inv := by
  obtain ⟨hwf, herr, hdegen, hbusy, hrest⟩ := hs
  refine ⟨hwf, herr, hdegen, fun hb => ?_, hrest⟩
  obtain ⟨hdone, hflags⟩ := hbusy hb
  exact ⟨by simp [hdone], hflags⟩

/-- WERR is no part of the invariant. -/
theorem inv_dropWrite {s : State} (hs : s.Inv) : (dropWrite s).Inv := hs

/-- A command in flight that ends with an error: acceptance had cleared DEGEN (30_encoding.md R70). -/
theorem inv_complete_error {s : State} (e : ErrCode) (hb : s.busy = true) (hs : s.Inv) : (complete (some e) s).Inv := by
  obtain ⟨hwf, -, -, hbusy, hrest⟩ := hs
  obtain ⟨-, hdegen, -⟩ := hbusy hb
  exact ⟨hwf, (errBits_some e).2, fun hd => by simp [hdegen] at hd, fun h => by simp at h, hrest⟩

/-- A command that ends well, from a state with CSTOBS in order. -/
theorem inv_complete_ok {s : State} (hwf : s.ram.wf) (hobs : s.obsMin.toNat ≤ s.obsMax.toNat)
    (hvalid : s.obsValid = false → s.obsMin = 0#8 ∧ s.obsMax = 0#8) (hdraw : s.ram.draw < s.draws) :
    (complete none s).Inv :=
  ⟨hwf, by simp [errBits], fun _ => rfl, fun h => by simp at h, hobs, hvalid, hdraw⟩

theorem inv_softReset {s : State} (c : Option Instr) (hs : s.Inv) : (softReset c s).Inv := by
  have hram := softReset_rewritten c s
  obtain ⟨hwf, -, -, -, -, -, hdraw⟩ := hs
  refine ⟨hram.wf hwf, by simp, by simp, by simp, by simp, by simp, ?_⟩
  rw [hram.draw, softReset_draws]
  omega

theorem inv_powerOnReset (s : State) : (powerOnReset s).Inv :=
  ⟨wf_powerUp _ _, by simp, by simp, by simp, by simp, by simp, by simp⟩

theorem inv_writeCtrl {s : State} (w : Word) (hs : s.Inv) : (writeCtrl w s).Inv := by
  cases h : w.getLsbD 1
  · rw [writeCtrl_of_not_srst h]; exact hs
  · rw [writeCtrl_of_srst h]; exact inv_softReset _ hs

theorem inv_regWrite {s : State} (r : Reg) (w : Word) (hs : s.Inv) : (regWrite r w s).Inv := by
  obtain ⟨-, h⟩ | ⟨-, -, h⟩ | ⟨-, h⟩ | ⟨-, h⟩ | ⟨-, -, h⟩ | ⟨-, h⟩ := regWrite_cases r w s
  · rw [h]; exact hs
  · rw [h]; exact inv_dropWrite hs
  · rw [h]; exact inv_writeCtrl w hs
  · rw [h]; exact inv_clearStatus w hs
  · rw [h]; exact inv_accept w hs
  · exact inv_of_sameButParameters h hs

theorem inv_hostAccess {s : State} (x : BusTxn) (hs : s.Inv) : (hostAccess x s).1.Inv := by
  obtain h | ⟨v, -, h⟩ | ⟨v, -, -, h⟩ | ⟨w, -, h⟩ | ⟨w, r, -, -, -, -, -, h⟩ | ⟨w, -, -, -, -, -, h⟩
    | ⟨w, -, -, hal, hlo, hhi, h⟩ := hostAccess_cases x s <;> rw [h]
  · exact hs
  · exact hs
  · obtain ⟨hwf, herr, hdegen, hbusy, hobs, hvalid, hdraw⟩ := hs
    exact ⟨hwf, herr, hdegen, hbusy, hobs, hvalid, Nat.lt_succ_of_lt hdraw⟩
  · exact hs
  · exact inv_regWrite r w hs
  · exact inv_dropWrite hs
  · obtain ⟨hwf, hrest⟩ := hs
    exact ⟨wf_writeLE hwf _ _ (ramAccess_fits hal hlo hhi), by simpa using hrest⟩

/-- The bounds CSTR records in observed mode are two samples, the lesser first (42_contrast_stretch.md R95). -/
theorem stretchBounds_observed_ordered {s : State} {b : Nat × Nat} (hv : validate (.cstr false) s = none)
    (hb : stretchBounds false s = some b) : ∃ lo hi : Byte, b = (lo.toNat, hi.toNat) ∧ lo.toNat ≤ hi.toNat := by
  obtain ⟨hformat, -, hranges, -⟩ := (validate_none _ s).1 hv
  obtain ⟨hsource, -⟩ := (checkRanges_none _ s).1 hranges
  obtain ⟨b', hb', -, hobserved⟩ := stretchBounds_spec false s ((checkFormat_none s).1 hformat) hsource
  obtain rfl : b = b' := Option.some.inj (hb.symm.trans hb')
  obtain ⟨lo, hi, hlohi, ⟨i, hi1, hi2⟩, -, hall⟩ := hobserved rfl
  exact ⟨lo, hi, hlohi, (hall i hi1).1.trans (hall i hi1).2⟩

/-- A command in flight: an error keeps CSTOBS, an observed CSTR records ordered bounds (42_contrast_stretch.md R98), and
every write is inside sample RAM. -/
theorem inv_exec {s t : State} {i : Instr} (hb : s.busy = true) (hs : s.Inv) (h : exec i s = .next t) : t.Inv := by
  obtain ⟨-, he⟩ | ⟨-, e, -, he⟩ | ⟨-, hv, r, v, hram, hok⟩ := exec_cases i s
  · cases he.symm.trans h; exact inv_complete_error _ hb hs
  · cases he.symm.trans h; exact inv_complete_error _ hb hs
  · obtain ⟨hwf, -, -, -, hobs, hvalid, hdraw⟩ := hs
    have hdraw' : r.draw < s.draws := hram.draw ▸ hdraw
    obtain ⟨-, he⟩ | ⟨expl, b, rfl, hbounds, he⟩ := hok
    · cases he.symm.trans h; exact inv_complete_ok (hram.wf hwf) hobs hvalid hdraw'
    · cases he.symm.trans h
      cases expl with
      | true => exact inv_complete_ok (hram.wf hwf) hobs (by simpa [stretchFlags] using hvalid) hdraw'
      | false =>
        obtain ⟨lo, hi, rfl, hle⟩ := stretchBounds_observed_ordered hv hbounds
        exact inv_complete_ok (hram.wf hwf) (by simpa [stretchFlags] using hle) (by simp [stretchFlags]) hdraw'

theorem inv_engineTurn {s t : State} (hs : s.Inv) (h : engineTurn s = .next t) : t.Inv := by
  obtain ⟨-, rfl⟩ | ⟨hb, rfl⟩ | ⟨hb, i, -, he⟩ := engineTurn_cases h
  · exact hs
  · exact inv_complete_error _ hb hs
  · exact inv_exec hb hs he

/-- Settles O39: each of the three moves keeps the invariant. -/
theorem everyStepKeepsTheInvariant : Obligations.EveryStepKeepsTheInvariant := by
  intro s t hs h
  have hpop : (popEvent s).Inv := hs
  obtain ⟨x, -, rfl⟩ | ⟨-, he⟩ | ⟨-, rfl⟩ := step_cases h
  · exact inv_hostAccess x hpop
  · exact inv_engineTurn hpop he
  · exact inv_powerOnReset _

end Sys2Proof.Machine
end

section
/-! PROOF. What changes CSTOBS (10_state.md R36): followed through the register write, the transaction, the command and
the step. -/

namespace Sys2Proof.Machine

theorem regWrite_cstobs (r : Reg) (w : Word) (s : State) :
    regRead .cstobs (regWrite r w s) = regRead .cstobs s ∨ (r = .ctrl ∧ w.getLsbD 1 = true) := by
  obtain ⟨-, h⟩ | ⟨-, -, h⟩ | ⟨rfl, h⟩ | ⟨-, h⟩ | ⟨-, -, h⟩ | ⟨-, h⟩ := regWrite_cases r w s
  · exact .inl (by rw [h])
  · exact .inl (by rw [h]; rfl)
  · cases hw : w.getLsbD 1
    · exact .inl (by rw [h, writeCtrl_of_not_srst hw]; rfl)
    · exact .inr ⟨rfl, rfl⟩
  · exact .inl (by rw [h]; rfl)
  · exact .inl (by rw [h]; rfl)
  · exact .inl (by rw [h]; rfl)

/-- A transaction leaves CSTOBS, but for the CTRL write with SRST = 1. -/
theorem hostAccess_cstobs (x : BusTxn) (s : State) :
    regRead .cstobs (hostAccess x s).1 = regRead .cstobs s
    ∨ ∃ w, w.getLsbD 1 = true ∧ x = { offset := 0x8#25, size := .four, access := .write w } := by
  obtain h | ⟨v, -, h⟩ | ⟨v, -, -, h⟩ | ⟨w, -, h⟩ | ⟨w, r, hw, hsize, -, -, hr, h⟩ | ⟨w, -, -, -, -, -, h⟩
    | ⟨w, -, -, -, -, -, h⟩ := hostAccess_cases x s <;> rw [h]
  · exact .inl rfl
  · exact .inl rfl
  · exact .inl rfl
  · exact .inl rfl
  · obtain hsame | ⟨rfl, hsrst⟩ := regWrite_cstobs r w s
    · exact .inl hsame
    · have hoffset : x.offset = 0x8#25 := BitVec.eq_of_toNat_eq (regAt_ctrl hr)
      obtain ⟨offset, size, access⟩ := x
      subst hoffset hsize hw
      exact .inr ⟨w, hsrst, rfl⟩
  · exact .inl rfl
  · exact .inl rfl

/-- A command leaves CSTOBS, but for an observed CSTR that ends without error (42_contrast_stretch.md R98). -/
theorem exec_cstobs {i : Instr} {s t : State} (h : exec i s = .next t) :
    regRead .cstobs t = regRead .cstobs s ∨ (i = .cstr false ∧ t.err = 0#4) := by
  obtain ⟨-, he⟩ | ⟨-, e, -, he⟩ | ⟨-, -, r, v, -, ⟨-, he⟩ | ⟨expl, b, rfl, -, he⟩⟩ := exec_cases i s
  all_goals cases he.symm.trans h
  · exact .inl rfl
  · exact .inl rfl
  · exact .inl rfl
  · cases expl with
    | true => exact .inl (by simp [regRead, stretchFlags])
    | false => exact .inr ⟨rfl, rfl⟩

/-- Settles O57: of the three moves, the transaction and the engine's turn change CSTOBS in one way each. -/
theorem cstobsChangesOnlyByObservedStretch : Obligations.CstobsChangesOnlyByObservedStretch := by
  intro s t h hne
  obtain ⟨x, hx, rfl⟩ | ⟨hengine, he⟩ | ⟨hpower, -⟩ := step_cases h
  case inl =>
    obtain hsame | ⟨w, hw, rfl⟩ := hostAccess_cstobs x (popEvent s)
    · exact (hne hsame).elim
    · exact .inr (.inr ⟨w, hw, hx⟩)
  case inr.inl =>
    obtain ⟨-, rfl⟩ | ⟨-, rfl⟩ | ⟨hbusy, i, hdecode, hexec⟩ := engineTurn_cases he
    · exact (hne rfl).elim
    · exact (hne rfl).elim
    · obtain hsame | ⟨rfl, herr⟩ := exec_cstobs hexec
      · exact (hne hsame).elim
      · exact .inl ⟨hengine, hbusy, hdecode, herr⟩
  case inr.inr => exact .inr (.inl hpower)

end Sys2Proof.Machine
end

section
/-! PROOF. The register map (10_state.md R20): which offsets hold a register, what each register reads, and what a write
to it stores. -/

namespace Sys2Proof.Machine

/-! ### Offsets -/

/-- Every offset of 10_state.md R20 holds a register. -/
theorem regAt_of_registerOffset {n : BitVec 25} (h : RegisterOffset n) : ∃ r, regAt n.toNat = some r := by
  have hmap : ∀ k < 0x41, k % 4 = 0 → (regAt k).isSome := by decide
  exact Option.isSome_iff_exists.1 (hmap n.toNat (Nat.lt_succ_of_le h.1) h.2)

/-- From 0x44 up every offset is reserved (10_state.md R37). -/
theorem regAt_reserved {n : Nat} (h : 0x44 ≤ n) : regAt n = none := by
  have hmap : ∀ e ∈ regMap, e.1 ≤ 0x40 := by decide
  by_contra hsome
  obtain ⟨r, hr⟩ := Option.ne_none_iff_exists'.1 hsome
  have := hmap _ (regAt_some hr)
  simp only at this
  omega

/-- CMD and the parameter registers lie at 0x10 to 0x3C (10_state.md R21). -/
theorem frozenWhileBusy_iff {n : Nat} {r : Reg} (h : regAt n = some r) :
    frozenWhileBusy r = true ↔ 0x10 ≤ n ∧ n ≤ 0x3C := by
  have hmap : ∀ e ∈ regMap, frozenWhileBusy e.2 = true ↔ 0x10 ≤ e.1 ∧ e.1 ≤ 0x3C := by decide
  exact hmap _ (regAt_some h)

/-- No register lies at two offsets. -/
theorem regAt_inj {n q : Nat} {r : Reg} (hn : regAt n = some r) (hq : regAt q = some r) : n = q := by
  have hmap : ∀ e ∈ regMap, ∀ d ∈ regMap, e.2 = d.2 → e.1 = d.1 := by decide
  exact hmap _ (regAt_some hn) _ (regAt_some hq) rfl

/-! ### Reserved offsets and regions -/

theorem regAccess_reserved {n : Nat} (h : 0x44 ≤ n) (acc : Access) (s : State) :
    regAccess n acc s = reservedAccess acc s := by
  unfold regAccess
  rw [regAt_reserved h]
  cases acc <;> rfl

/-- An aligned transaction between the registers and sample RAM, or above sample RAM (20_memory.md R44). -/
theorem hostAccess_reserved {x : BusTxn} {s : State} (hal : x.offset.toNat % sizeBytes x.size = 0)
    (h : (0x100 ≤ x.offset.toNat ∧ x.offset.toNat ≤ 0xFFFFFF) ∨ 0x1000000 + s.sramBytes ≤ x.offset.toNat) :
    hostAccess x s = reservedAccess x.access s := by
  have halign : aligned x = true := by simp [aligned, hal]
  have habove : ¬ x.offset.toNat < regionEnd := by unfold regionEnd; omega
  have houtside : ¬ (ramBase ≤ x.offset.toNat ∧ x.offset.toNat < ramBase + s.sramBytes) := by unfold ramBase; omega
  simp [hostAccess, halign, habove, houtside]

/-- Settles O45: both kinds of reserved offset are served by `reservedAccess`. -/
theorem reservedRegistersReadZeroAndIgnoreWrites : Obligations.ReservedRegistersReadZeroAndIgnoreWrites := by
  intro s
  refine ⟨fun n hlo hhi hal => ?register, fun x hal hregion => ?region⟩
  case register =>
    have h : ∀ acc, hostAccess { offset := n, size := .four, access := acc } s = reservedAccess acc s := fun acc => by
      rw [hostAccess_reg acc s (by omega) hal, regAccess_reserved hlo]
    exact ⟨h .read, fun w => h (.write w)⟩
  case region =>
    rw [hostAccess_reserved hal hregion]
    exact ⟨fun hr => by rw [hr]; rfl, fun w hw => by rw [hw]; rfl⟩

/-! ### Writes to the status and control registers, and writes while busy -/

/-- Settles O48: every offset from 0x10 to 0x3C holds a register that is frozen while busy. -/
theorem busyDropsRegisterWrites : Obligations.BusyDropsRegisterWrites := by
  intro s n w hbusy hlo hhi hal
  obtain ⟨r, hr⟩ := regAt_of_registerOffset (n := n) ⟨by omega, hal⟩
  have hfrozen := (frozenWhileBusy_iff hr).2 ⟨hlo, hhi⟩
  exact (writeWord_reg w s (by omega) hal hr).trans (by rw [regWrite_of_frozen hbusy hfrozen]; rfl)

/-- Settles O49: the write is `clearStatus`, which keeps a flag when its bit is 0. -/
theorem statusIsWriteOneToClear : Obligations.StatusIsWriteOneToClear := by
  intro s w
  have hwrite : writeWord 0xC#25 w s = (clearStatus w s, .okWrite) := by
    rw [writeWord_reg (r := .status) w s (by decide) (by decide) (by decide), regWrite_of_not_frozen fun _ => rfl]
    rfl
  have hflag : ∀ flag bit : Bool, (flag && !bit) = if bit then false else flag := by decide
  exact hwrite.trans (by rw [clearStatus, hflag, hflag])

/-- Settles O60. -/
theorem controlWriteSetsInterruptEnable : Obligations.ControlWriteSetsInterruptEnable := by
  intro s w hsrst
  rw [writeWord_ctrl, writeCtrl_of_not_srst hsrst]

end Sys2Proof.Machine
end

section
/-! PROOF. Registers read and written at their offsets: what is stored, that it is read back, and that the other
registers keep what they read (10_state.md R20 to R36). -/

namespace Sys2Proof.Machine

/-! ### Transactions at a register's offset -/

theorem regAt_regOffset (r : Reg) : regAt (regOffset r).toNat = some r := by cases r <;> decide

theorem regOffset_legal (r : Reg) : RegisterOffset (regOffset r) := by cases r <;> decide

theorem readWord_regOffset (r : Reg) (s : State) : ReadsAs (regOffset r) (regRead r s) s :=
  readWord_reg s (Nat.lt_of_le_of_lt (regOffset_legal r).1 (by decide)) (regOffset_legal r).2 (regAt_regOffset r)

theorem writeWord_regOffset (r : Reg) (w : Word) (s : State) :
    writeWord (regOffset r) w s = (regWrite r w s, .okWrite) :=
  writeWord_reg w s (Nat.lt_of_le_of_lt (regOffset_legal r).1 (by decide)) (regOffset_legal r).2 (regAt_regOffset r)

theorem writeWord_regOffset_idle {s : State} (hidle : s.busy = false) (r : Reg) (w : Word) :
    writeWord (regOffset r) w s = (storeReg r w s, .okWrite) := by
  rw [writeWord_regOffset, regWrite_of_not_frozen fun hb => by simp [hidle] at hb]

/-- The register at a legal offset. -/
theorem exists_regOffset_eq {n : BitVec 25} (h : RegisterOffset n) : ∃ r, n = regOffset r := by
  obtain ⟨r, hr⟩ := regAt_of_registerOffset h
  exact ⟨r, BitVec.eq_of_toNat_eq (regAt_inj hr (regAt_regOffset r))⟩

/-! ### What is stored and read back -/

theorem readsAs_ofNat {r : Reg} {s : State} {k : Nat} (hk : (regRead r s).toNat = k) :
    ReadsAs (regOffset r) (BitVec.ofNat 32 k) s := by
  subst hk
  rw [BitVec.ofNat_toNat, BitVec.setWidth_eq]
  exact readWord_regOffset r s

/-- A field of a word, as a number. -/
theorem extractLsb'_eq_ofNat (w : Word) (start len : Nat) :
    w.extractLsb' start len = BitVec.ofNat len (w.toNat / 2 ^ start) := by
  rw [BitVec.extractLsb', Nat.shiftRight_eq_div_pow]

/-- The parameter registers that the host writes, in the order of 10_state.md R20. -/
def parameterRegs : List Reg :=
  [.src, .dst, .dims, .fmt, .opnd0, .opnd1, .opnd2, .gamma, .gainc, .cstout, .cstsrc]

/-- How many low bits of a parameter register are not reserved (10_state.md R27 to R35). -/
def storedBits : Reg → Nat
  | .fmt => 4
  | .cstout | .cstsrc => 16
  | _ => 32

/-- What is written to a parameter register is read back, its reserved bits as 0. -/
theorem regRead_storeReg_same {r : Reg} (hr : r ∈ parameterRegs) (w : Word) (s : State) :
    (regRead r (storeReg r w s)).toNat = w.toNat % 2 ^ storedBits r := by
  have hw := w.isLt
  cases r with
  | id | sramsz | ctrl | status | cmd | cstobs => simp [parameterRegs] at hr
  | src | dst | opnd0 | opnd1 | opnd2 | gamma | gainc => exact (Nat.mod_eq_of_lt hw).symm
  | dims =>
    rw [regRead_dims_toNat]
    simp only [storeReg, storedBits, extractLsb'_eq_ofNat, BitVec.toNat_ofNat]
    omega
  | fmt =>
    rw [regRead_fmt_toNat]
    simp only [storeReg, storedBits, extractLsb'_eq_ofNat, BitVec.toNat_ofNat]
    omega
  | cstout =>
    rw [regRead_cstout_toNat]
    simp only [storeReg, storedBits, extractLsb'_eq_ofNat, BitVec.toNat_ofNat]
    omega
  | cstsrc =>
    rw [regRead_cstsrc_toNat]
    simp only [storeReg, storedBits, extractLsb'_eq_ofNat, BitVec.toNat_ofNat]
    omega

/-- The mask of the low `k` bits. -/
theorem and_lowMask_toNat (w : Word) {k : Nat} (hk : k ≤ 32) :
    (w &&& BitVec.ofNat 32 (2 ^ k - 1)).toNat = w.toNat % 2 ^ k := by
  have hpow : 2 ^ k ≤ 2 ^ 32 := Nat.pow_le_pow_right (by decide) hk
  rw [BitVec.toNat_and, BitVec.toNat_ofNat, Nat.mod_eq_of_lt (by omega), Nat.and_two_pow_sub_one_eq_mod]

theorem storedBits_le (r : Reg) : storedBits r ≤ 32 := by cases r <;> decide

/-- An idle write to a parameter register, read back by the host. -/
theorem readsAs_after_write {r : Reg} (hr : r ∈ parameterRegs) (w : Word) {s : State} (hidle : s.busy = false) :
    ReadsAs (regOffset r) (w &&& BitVec.ofNat 32 (2 ^ storedBits r - 1)) (writeWord (regOffset r) w s).1 := by
  have hback : regRead r (storeReg r w s) = w &&& BitVec.ofNat 32 (2 ^ storedBits r - 1) :=
    BitVec.eq_of_toNat_eq ((regRead_storeReg_same hr w s).trans (and_lowMask_toNat w (storedBits_le r)).symm)
  rw [writeWord_regOffset_idle hidle, ← hback]
  exact readWord_regOffset r _

/-- The words the registers read, field by field. -/
theorem registers_read (s : State) :
    ReadsAs (regOffset .ctrl) (BitVec.ofNat 32 s.ie.toNat) s
    ∧ ReadsAs (regOffset .status) (BitVec.ofNat 32 (s.busy.toNat + 2 * s.done.toNat + 4 * s.degen.toNat
        + 8 * s.werr.toNat + 0x100 * s.err.toNat)) s
    ∧ ReadsAs (regOffset .dims) (BitVec.ofNat 32 (s.width.toNat + 0x10000 * s.height.toNat)) s
    ∧ ReadsAs (regOffset .fmt) (BitVec.ofNat 32 s.channels.toNat) s
    ∧ ReadsAs (regOffset .cstout) (BitVec.ofNat 32 (s.outMin.toNat + 0x100 * s.outMax.toNat)) s
    ∧ ReadsAs (regOffset .cstsrc) (BitVec.ofNat 32 (s.srcMin.toNat + 0x100 * s.srcMax.toNat)) s
    ∧ ReadsAs (regOffset .cstobs) (BitVec.ofNat 32 (s.obsMin.toNat + 0x100 * s.obsMax.toNat
        + 0x10000 * s.obsValid.toNat)) s :=
  ⟨readsAs_ofNat (regRead_ctrl_toNat s), readsAs_ofNat (statusWord_toNat s),
    readsAs_ofNat ((regRead_dims_toNat s).trans (by omega)), readsAs_ofNat (regRead_fmt_toNat s),
    readsAs_ofNat ((regRead_cstout_toNat s).trans (by omega)), readsAs_ofNat ((regRead_cstsrc_toNat s).trans (by omega)),
    readsAs_ofNat ((regRead_cstobs_toNat s).trans (by omega))⟩

/-- Settles O46: the reads by the words' fields, the writes by `storeReg`, the read-back by the mask of the stored
bits. -/
theorem parameterRegistersReadBack : Obligations.ParameterRegistersReadBack := by
  intro s
  refine ⟨?reads, fun w hidle => ⟨?writes, fun e he => ?back⟩⟩
  case reads =>
    obtain ⟨hctrl, hstatus, hdims, hfmt, hcstout, hcstsrc, hcstobs⟩ := registers_read s
    exact ⟨readWord_regOffset .id s, readWord_regOffset .sramsz s, hctrl, hstatus, readWord_regOffset .cmd s,
      readWord_regOffset .src s, readWord_regOffset .dst s, hdims, hfmt, readWord_regOffset .opnd0 s,
      readWord_regOffset .opnd1 s, readWord_regOffset .opnd2 s, readWord_regOffset .gamma s,
      readWord_regOffset .gainc s, hcstout, hcstsrc, hcstobs⟩
  case writes =>
    have hwrite := fun r => writeWord_regOffset_idle hidle r w
    have hlow (len : Nat) : BitVec.ofNat len w.toNat = w.extractLsb' 0 len := by
      rw [extractLsb'_eq_ofNat, Nat.pow_zero, Nat.div_one]
    have hhigh (len start : Nat) : BitVec.ofNat len (w.toNat / 2 ^ start) = w.extractLsb' start len :=
      (extractLsb'_eq_ofNat w start len).symm
    rw [hlow, hlow, hlow, show 0x10000 = 2 ^ 16 from rfl, show 0x100 = 2 ^ 8 from rfl, hhigh, hhigh]
    exact ⟨hwrite .src, hwrite .dst, hwrite .dims, hwrite .fmt, hwrite .opnd0, hwrite .opnd1, hwrite .opnd2,
      hwrite .gamma, hwrite .gainc, hwrite .cstout, hwrite .cstsrc⟩
  case back =>
    have htable : e ∈ parameterRegs.map fun r => (regOffset r, BitVec.ofNat 32 (2 ^ storedBits r - 1)) := he
    obtain ⟨r, hr, rfl⟩ := List.mem_map.1 htable
    exact readsAs_after_write hr w hidle

/-! ### What the other registers read after a write

Each lemma goes through the registers that may be read: the register written is excluded by hypothesis, and every other
one reads fields that the write does not touch. -/

/-- A dropped write shows in STATUS only. -/
theorem regRead_dropWrite {q : Reg} (hq : q ≠ .status) (s : State) : regRead q (dropWrite s) = regRead q s := by
  cases q <;> first | exact (hq rfl).elim | rfl

/-- The acceptance of a command shows in CMD and STATUS only. -/
theorem regRead_accept {q : Reg} (hcmd : q ≠ .cmd) (hstatus : q ≠ .status) (w : Word) (s : State) :
    regRead q (accept w s) = regRead q s := by
  cases q <;> first | exact (hcmd rfl).elim | exact (hstatus rfl).elim | rfl

/-- A stored write shows in its own register only. -/
theorem regRead_storeReg_other {r q : Reg} (hne : q ≠ r) (w : Word) (s : State)
    (hctrl : r = .ctrl → w.getLsbD 1 = false) (hstatus : q = .status → r ≠ .cmd) :
    regRead q (storeReg r w s) = regRead q s := by
  cases r with
  | id | sramsz | cstobs => rfl
  | ctrl =>
    rw [storeReg, writeCtrl_of_not_srst (hctrl rfl)]
    cases q <;> first | exact (hne rfl).elim | rfl
  | cmd => exact regRead_accept hne (fun h => hstatus h rfl) w s
  | status | src | dst | dims | fmt | opnd0 | opnd1 | opnd2 | gamma | gainc | cstout | cstsrc =>
    cases q <;> first | exact (hne rfl).elim | rfl

/-- A register write leaves what the other registers read. -/
theorem regRead_regWrite_other {r q : Reg} (hne : q ≠ r) (w : Word) (s : State)
    (hctrl : r = .ctrl → w.getLsbD 1 = false)
    (hstatus : q = .status → r ≠ .cmd ∧ (s.busy = true → frozenWhileBusy r = false)) :
    regRead q (regWrite r w s) = regRead q s := by
  by_cases hdrop : s.busy = true ∧ frozenWhileBusy r = true
  · obtain ⟨hbusy, hfrozen⟩ := hdrop
    rw [regWrite_of_frozen hbusy hfrozen]
    refine regRead_dropWrite (fun hq => ?_) s
    simp [(hstatus hq).2 hbusy] at hfrozen
  · rw [regWrite_of_not_frozen (by simpa using hdrop)]
    exact regRead_storeReg_other hne w s hctrl fun hq => (hstatus hq).1

/-- Only a soft reset reaches sample RAM from a register. -/
theorem regWrite_ram {r : Reg} {w : Word} (hctrl : r = .ctrl → w.getLsbD 1 = false) (s : State) :
    (regWrite r w s).ram = s.ram := by
  obtain ⟨-, h⟩ | ⟨-, -, h⟩ | ⟨hr, h⟩ | ⟨-, h⟩ | ⟨-, -, h⟩ | ⟨-, h⟩ := regWrite_cases r w s
  · rw [h]
  · rw [h, dropWrite_ram]
  · rw [h, writeCtrl_of_not_srst (hctrl hr)]
  · rw [h, clearStatus_ram]
  · rw [h, accept_ram]
  · rw [h]

/-- Settles O47: the offsets of two registers are told apart by the register map. -/
theorem registerWritesLeaveOtherRegisters : Obligations.RegisterWritesLeaveOtherRegisters := by
  intro s w
  refine ⟨fun n q hn hq hne hctrl hstatus => ?others, fun n hn => ?readOnly⟩
  case others =>
    obtain ⟨r, rfl⟩ := exists_regOffset_eq hn
    obtain ⟨p, rfl⟩ := exists_regOffset_eq hq
    have hctrl' : r = .ctrl → w.getLsbD 1 = false := fun hr => hctrl (by rw [hr]; rfl)
    have hstatus' : p = .status → r ≠ .cmd ∧ (s.busy = true → frozenWhileBusy r = false) := fun hp => by
      obtain ⟨hcmd, hfrozen⟩ := hstatus (by rw [hp]; rfl)
      refine ⟨fun hr => hcmd (by rw [hr]; rfl), fun hbusy => ?_⟩
      exact Bool.eq_false_iff.2 (mt (frozenWhileBusy_iff (regAt_regOffset r)).1 (hfrozen hbusy))
    have hpr : p ≠ r := fun h => hne (congrArg regOffset h)
    have hwrite : (writeWord (regOffset r) w s).1 = regWrite r w s := congrArg Prod.fst (writeWord_regOffset r w s)
    rw [hwrite, readWord_regOffset p, readWord_regOffset p, regRead_regWrite_other hpr w s hctrl' hstatus']
    exact ⟨rfl, regWrite_ram hctrl' s⟩
  case readOnly =>
    have hoffsets : n ∈ [Reg.id, .sramsz, .cstobs].map regOffset := hn
    obtain ⟨r, hr, rfl⟩ := List.mem_map.1 hoffsets
    have hsame : ∀ r ∈ [Reg.id, .sramsz, .cstobs], regWrite r w s = s := by
      simp [regWrite, frozenWhileBusy, storeReg]
    rw [writeWord_regOffset, hsame r hr]

end Sys2Proof.Machine
end

section
/-! PROOF. Sample RAM in canonical form: the cells are exactly the bytes that can be looked up, so a rising list is
determined by its lookups. -/

namespace Sys2Proof.Machine

/-- In a list of rising offsets the lookup finds exactly the cells listed. -/
theorem lookupCell_eq_some_iff {l : List Host.Cell} (h : l.Pairwise (fun c d => c.1 < d.1)) (a : Nat) (v : Byte) :
    lookupCell l a = some v ↔ (a, v) ∈ l := by
  induction l with
  | nil => simp [lookupCell]
  | cons c rest ih =>
    obtain ⟨k, w⟩ := c
    obtain ⟨hbelow, hrest⟩ := List.pairwise_cons.1 h
    unfold lookupCell
    by_cases hka : k = a
    · subst hka
      have hfresh : (k, v) ∉ rest := fun hmem => Nat.lt_irrefl k (hbelow _ hmem)
      simp [hfresh, eq_comm]
    · have hother : (a, v) ≠ (k, w) := fun e => hka (congrArg Prod.fst e).symm
      simp [hka, hother, ih hrest]

/-- Settles O40: two rising lists with the same members are the same list. -/
theorem canonicalMemoryIsUnique : Obligations.CanonicalMemoryIsUnique := by
  intro m m' hm hm' htop hdraw hlookup
  have hmem : ∀ c : Host.Cell, c ∈ m.cells ↔ c ∈ m'.cells := fun c => by
    rw [← lookupCell_eq_some_iff hm.1, ← lookupCell_eq_some_iff hm'.1, hlookup]
  have asymm : Std.Asymm (fun c d : Host.Cell => c.1 < d.1) := ⟨fun _ _ => Nat.lt_asymm⟩
  have hcells : m.cells = m'.cells := hm.1.eq_of_mem_iff hm'.1 (fun {c} => hmem c)
  cases m
  cases m'
  exact (Memory.mk.injEq ..).mpr ⟨hcells, hdraw, htop⟩

end Sys2Proof.Machine
end

section
/-! PROOF. The result of a command as a function (10_state.md R38): which code it ends with, which source sample each
output byte comes from and what it becomes, and that all of it reads the parameter registers and the source samples
only. -/

namespace Sys2Proof.Machine

/-! ### The result of a command -/

/-- The code a command is rejected with: ILLEGAL_CMD, or else the first failing check (60_exceptions.md R109, R110). -/
def rejection (i : Instr) (s : State) : Option ErrCode :=
  if i.wellFormed then validate i s else some .illegalCmd

/-- The source offset whose sample decides the output byte at offset `a`. -/
def sourceOffset (i : Instr) (s : State) (a : Nat) : Nat :=
  match i with
  | .bplane => s.S + (a - s.D) % (s.H * s.W)
  | _ => if isInplace i then a else s.S + (a - s.D)

/-- The channel of the output byte at offset `a`. -/
def channelOf (m : SatMods) (s : State) (a : Nat) : Nat :=
  if m.inplace then m.chsel.toNat else (a - s.D) % s.C

/-- What sample `v` of channel `k` becomes by sample function `f` (40_saturating_arithmetic.md R77, R78). -/
def satOutput (f : Byte → Word → Byte) (m : SatMods) (s : State) (k : Nat) (v : Byte) : Byte :=
  if selected m k then f v (operandOf m s k) else v

/-- What sample `v` becomes between bounds `b` (42_contrast_stretch.md R96, R97). -/
def stretchOutput (b : Nat × Nat) (s : State) (v : Byte) : Byte :=
  if b.1 = b.2 then s.outMin else stretchSample s.outMin.toNat s.outMax.toNat b.1 b.2 v.toNat

/-- The bounds of CSTR, with a value for the case without any, which no validated command has. -/
def boundsOf (expl : Bool) (s : State) : Nat × Nat := (stretchBounds expl s).getD (255, 0)

/-- The output byte at offset `a`, from its source sample `v`. -/
def outputSample (i : Instr) (s : State) (a : Nat) (v : Byte) : Byte :=
  match i with
  | .sadd m => satOutput saddSample m s (channelOf m s a) v
  | .ssub m => satOutput ssubSample m s (channelOf m s a) v
  | .smul m => satOutput smulSample m s (channelOf m s a) v
  | .sdiv m => satOutput sdivSample m s (channelOf m s a) v
  | .gamma => gammaSample s.gamma s.gainc v
  | .cstr expl => stretchOutput (boundsOf expl s) s v
  | .bplane => planeSample ((a - s.D) / (s.H * s.W)) v

/-- The byte a command that is not rejected writes at offset `a` of its output range. -/
def outputByte (i : Instr) (s : State) (a : Nat) : Byte := outputSample i s a (s.byte (sourceOffset i s a))

/-- The flags a command that is not rejected sets before its completion, found from state `s` (42_contrast_stretch.md
R97, R98). -/
def commandFlags (i : Instr) (s : State) : State → State :=
  match i with
  | .cstr expl => stretchFlags expl (boundsOf expl s)
  | _ => id

@[simp] theorem commandFlags_ram (i : Instr) (s t : State) : (commandFlags i s t).ram = t.ram := by cases i <;> rfl

/-! ### The commands compute it -/

theorem exec_of_rejected {i : Instr} {s : State} {e : ErrCode} (h : rejection i s = some e) :
    exec i s = .next (complete (some e) s) := by
  rw [exec_eq]
  unfold rejection at h
  cases hwf : i.wellFormed <;> rw [hwf] at h
  · cases h
    exact executeCommand_illegal hwf _
  · exact executeCommand_error hwf h _

theorem rejection_none {i : Instr} {s : State} (h : rejection i s = none) :
    i.wellFormed = true ∧ validate i s = none := by
  unfold rejection at h
  cases hwf : i.wellFormed <;> rw [hwf] at h
  · cases h
  · exact ⟨rfl, h⟩

/-- A saturating-arithmetic body, in place or not. -/
theorem satBody_writes (f : Byte → Word → Byte) {m : SatMods} {i : Instr} {s : State} (hr : checkRanges i s = none)
    (hi : isInplace i = m.inplace) (hcount : outputCount i s = s.N) (hsel : selectorOf i = m.chsel.toNat) :
    ∃ r, overRam (satBody f m) s = some { s with ram := r }
      ∧ Rewritten s.ram r (fun a => a ∈ outputAddrs i s) (fun a => satOutput f m s (channelOf m s a)
          (s.byte (if isInplace i then a else s.S + (a - s.D)))) := by
  obtain ⟨hs, hd⟩ := (checkRanges_none i s).1 hr
  have hmem := mem_outputAddrs_of_ranges hr
  cases hm : m.inplace with
  | false =>
    rw [hm] at hi
    obtain ⟨r, h, hw⟩ := satBody_copy f m s hm hs (hcount ▸ hd hi)
    exact ⟨r, overRam_some h, hw.congr (fun a => by simp [hmem, hi, hcount])
      fun a _ => by simp [satOutput, channelOf, hm, hi]⟩
  | true =>
    rw [hm] at hi
    obtain ⟨r, h, hw⟩ := satBody_inplace f m s hm hs
    exact ⟨r, overRam_some h, hw.congr (fun a => by simp [hmem, hi, hsel])
      fun a _ => by simp [satOutput, channelOf, hm, hi, selected]⟩

/-- A command that is not rejected ends well: it writes `outputByte` over its output range and nothing else. -/
theorem exec_of_not_rejected {i : Instr} {s : State} (h : rejection i s = none) :
    ∃ r, Rewritten s.ram r (fun a => a ∈ outputAddrs i s) (outputByte i s)
      ∧ exec i s = .next (complete none (commandFlags i s { s with ram := r })) := by
  obtain ⟨hwf, hv⟩ := rejection_none h
  obtain ⟨hformat, hshape, hr, -⟩ := (validate_none i s).1 hv
  obtain ⟨hs, hd⟩ := (checkRanges_none i s).1 hr
  have hmem := mem_outputAddrs_of_ranges hr
  suffices hbody : ∃ r, bodyOf i s = some (commandFlags i s { s with ram := r })
      ∧ Rewritten s.ram r (fun a => a ∈ outputAddrs i s) (outputByte i s) by
    obtain ⟨r, hb, hw⟩ := hbody
    exact ⟨r, hw, (exec_eq i s).trans (executeCommand_ok hwf hv hb)⟩
  cases i with
  | sadd m => exact satBody_writes saddSample hr rfl rfl rfl
  | ssub m => exact satBody_writes ssubSample hr rfl rfl rfl
  | smul m => exact satBody_writes smulSample hr rfl rfl rfl
  | sdiv m => exact satBody_writes sdivSample hr rfl rfl rfl
  | gamma =>
    obtain ⟨r, hb, hw⟩ := gammaBody_spec s hs (hd rfl)
    exact ⟨r, overRam_some hb, hw.congr (fun a => (hmem a).symm) fun _ _ => rfl⟩
  | cstr expl =>
    obtain ⟨b, hbounds, -⟩ := stretchBounds_spec expl s ((checkFormat_none s).1 hformat) hs
    obtain ⟨r, hb, hw⟩ := stretchRam_spec b s hs (hd rfl)
    have hbOf : boundsOf expl s = b := by rw [boundsOf, hbounds]; rfl
    refine ⟨r, ?_, hw.congr (fun a => (hmem a).symm) fun a _ => ?_⟩
    · simp [bodyOf, stretchBody, hbounds, overRam_some hb, commandFlags, hbOf]
    · simp only [outputByte, outputSample, hbOf]; rfl
  | bplane =>
    have hC : s.channels.toNat = 1 := by
      by_contra hc
      simp [checkShape, State.C, hc] at hshape
    have hd' : s.OutputOk (8 * (s.H * s.W)) := hd rfl
    simp only [State.SourceOk, State.OutputOk, hC, Nat.mul_one] at hs hd'
    obtain ⟨r, hb, hw⟩ := planesBody_spec s hs hd'.1 hd'.2
    exact ⟨r, overRam_some hb, hw.congr (fun a => (hmem a).symm) fun _ _ => rfl⟩

/-- The output range of the spec is the one the model computes from the registers. -/
theorem outputOffset_iff (i : Instr) (s : State) (a : Nat) :
    OutputOffset i s a ↔
      if isInplace i then ∃ n, n < s.N ∧ n % s.C = selectorOf i ∧ a = s.S + n
      else s.D ≤ a ∧ a < s.D + outputCount i s := by
  cases i <;> exact Iff.rfl

/-- The sample an output byte comes from is in the source buffer. -/
theorem sourceOffset_mem {i : Instr} {s : State} {a : Nat} (hformat : s.FormatOk) (ha : OutputOffset i s a) :
    ∃ n, n < s.N ∧ sourceOffset i s a = s.S + n := by
  rw [outputOffset_iff] at ha
  obtain ⟨hwidth, hheight, hchannels⟩ := hformat
  have hpixels : 0 < s.H * s.W := Nat.mul_pos hheight hwidth
  have hC : 0 < s.C := by unfold State.C; omega
  have other : (if isInplace i then ∃ n, n < s.N ∧ n % s.C = selectorOf i ∧ a = s.S + n
      else s.D ≤ a ∧ a < s.D + s.N) → ∃ n, n < s.N ∧ (if isInplace i then a else s.S + (a - s.D)) = s.S + n := by
    intro h
    split at h
    · obtain ⟨n, hn, -, rfl⟩ := h
      exact ⟨n, hn, if_pos ‹_›⟩
    · exact ⟨a - s.D, by omega, if_neg ‹_›⟩
  cases i with
  | bplane =>
    exact ⟨_, Nat.lt_of_lt_of_le (Nat.mod_lt _ hpixels) (Nat.le_mul_of_pos_right _ hC), rfl⟩
  | sadd | ssub | smul | sdiv | gamma | cstr => exact other ha

/-! ### It reads the parameters and the source samples only -/

section
variable {s s' : State}

theorem SameInputs.dims (h : SameInputs s s') : s.W = s'.W ∧ s.H = s'.H ∧ s.C = s'.C ∧ s.N = s'.N := by
  obtain ⟨-, -, hwidth, hheight, hchannels, -⟩ := h
  simp only [State.N, State.W, State.H, State.C, hwidth, hheight, hchannels, and_self]

theorem SameInputs.buffers (h : SameInputs s s') : s.S = s'.S ∧ s.D = s'.D := by
  obtain ⟨hsrc, hdst, -⟩ := h
  simp only [State.S, State.D, hsrc, hdst, and_self]

theorem SameInputs.opnd (h : SameInputs s s') : s.opnd = s'.opnd := by
  obtain ⟨-, -, -, -, -, h0, h1, h2, -⟩ := h
  funext j
  unfold State.opnd
  split <;> assumption

theorem SameInputs.gamma (h : SameInputs s s') : s.gamma = s'.gamma ∧ s.gainc = s'.gainc := by
  obtain ⟨-, -, -, -, -, -, -, -, hgamma, hgainc, -⟩ := h
  exact ⟨hgamma, hgainc⟩

theorem SameInputs.stretch (h : SameInputs s s') :
    s.outMin = s'.outMin ∧ s.outMax = s'.outMax ∧ s.srcMin = s'.srcMin ∧ s.srcMax = s'.srcMax := by
  obtain ⟨-, -, -, -, -, -, -, -, -, -, houtMin, houtMax, hsrcMin, hsrcMax, -⟩ := h
  exact ⟨houtMin, houtMax, hsrcMin, hsrcMax⟩

theorem SameInputs.ramBytes (h : SameInputs s s') : s.ram.bytes = s'.ram.bytes := by
  obtain ⟨-, -, -, -, -, -, -, -, -, -, -, -, -, -, htop, -⟩ := h
  exact bytes_eq_of_topWord htop

theorem SameInputs.source (h : SameInputs s s') {n : Nat} (hn : n < s.N) :
    s.byte (s.S + n) = s'.byte (s.S + n) := by
  obtain ⟨-, -, -, -, -, -, -, -, -, -, -, -, -, -, -, hsource⟩ := h
  exact hsource n hn

theorem outputCount_congr (h : SameInputs s s') (i : Instr) : outputCount i s = outputCount i s' := by
  obtain ⟨hW, hH, -, hN⟩ := h.dims
  simp only [outputCount, hW, hH, hN]

theorem rejection_congr (h : SameInputs s s') (i : Instr) : rejection i s = rejection i s' := by
  obtain ⟨hW, hH, hC, hN⟩ := h.dims
  obtain ⟨hS, hD⟩ := h.buffers
  obtain ⟨hgamma, hgainc⟩ := h.gamma
  have hformat : checkFormat s = checkFormat s' := by simp only [checkFormat, hW, hH, hC]
  have hshape : checkShape i s = checkShape i s' := by simp only [checkShape, checkSelector, hC]
  have hranges : checkRanges i s = checkRanges i s' := by
    rw [checkRanges, checkRanges, outputCount_congr h, State.sramBytes, State.sramBytes, h.ramBytes, hS, hD, hN]
  have hdomain : checkDomain i s = checkDomain i s' := by simp only [checkDomain, h.opnd, hC, hgamma, hgainc]
  simp only [rejection, validate, hformat, hshape, hranges, hdomain]

/-- The search for the bounds reads the samples of its range only. -/
theorem sampleBounds_congr {src n : Nat} {m m' : Memory} (hbytes : m.bytes = m'.bytes)
    (h : ∀ k, k < n → m.get (src + k) = m'.get (src + k)) : sampleBounds src m n = sampleBounds src m' n := by
  induction n with
  | zero => rfl
  | succ k ih =>
    have hread : m.read (src + k) = m'.read (src + k) := by
      simp only [Memory.read, hbytes, h k (Nat.lt_succ_self k)]
    simp only [sampleBounds, ih fun j hj => h j (Nat.lt_succ_of_lt hj), hread]

theorem boundsOf_congr (h : SameInputs s s') (expl : Bool) : boundsOf expl s = boundsOf expl s' := by
  obtain ⟨-, -, -, hN⟩ := h.dims
  obtain ⟨hS, -⟩ := h.buffers
  obtain ⟨-, -, hsrcMin, hsrcMax⟩ := h.stretch
  have hsearch : sampleBounds s.S s.ram s.N = sampleBounds s'.S s'.ram s'.N := by
    rw [← hS, ← hN]
    exact sampleBounds_congr h.ramBytes fun k hk => h.source hk
  simp only [boundsOf, stretchBounds, hsearch, hsrcMin, hsrcMax]

theorem satOutput_congr (h : SameInputs s s') (f : Byte → Word → Byte) (m : SatMods) (k : Nat) (v : Byte) :
    satOutput f m s k v = satOutput f m s' k v := by
  rw [satOutput, satOutput, operandOf, operandOf, h.opnd]

theorem outputSample_congr (h : SameInputs s s') (i : Instr) (a : Nat) (v : Byte) :
    outputSample i s a v = outputSample i s' a v := by
  obtain ⟨hW, hH, hC, -⟩ := h.dims
  obtain ⟨-, hD⟩ := h.buffers
  obtain ⟨hgamma, hgainc⟩ := h.gamma
  obtain ⟨houtMin, houtMax, -⟩ := h.stretch
  cases i with
  | sadd m | ssub m | smul m | sdiv m => simp only [outputSample, satOutput_congr h, channelOf, hD, hC]
  | gamma => simp only [outputSample, hgamma, hgainc]
  | cstr expl => simp only [outputSample, stretchOutput, boundsOf_congr h, houtMin, houtMax]
  | bplane => simp only [outputSample, hD, hH, hW]

theorem outputByte_congr (h : SameInputs s s') {i : Instr} {a : Nat} (hformat : s.FormatOk)
    (ha : OutputOffset i s a) : outputByte i s a = outputByte i s' a := by
  obtain ⟨hW, hH, -⟩ := h.dims
  obtain ⟨hS, hD⟩ := h.buffers
  have hoffset : sourceOffset i s a = sourceOffset i s' a := by simp only [sourceOffset, hS, hD, hH, hW]
  obtain ⟨n, hn, hsource⟩ := sourceOffset_mem hformat ha
  have hbyte : s.byte (sourceOffset i s a) = s'.byte (sourceOffset i s' a) := by
    rw [← hoffset, hsource]
    exact h.source hn
  rw [outputByte, outputByte, hbyte, outputSample_congr h]

theorem outputOffset_congr (h : SameInputs s s') (i : Instr) (a : Nat) : OutputOffset i s a ↔ OutputOffset i s' a := by
  obtain ⟨-, -, hC, hN⟩ := h.dims
  obtain ⟨hS, hD⟩ := h.buffers
  simp only [outputOffset_iff, outputCount_congr h, hC, hN, hS, hD]

theorem commandFlags_congr (h : SameInputs s s') (i : Instr) : commandFlags i s = commandFlags i s' := by
  cases i with
  | cstr expl => simp only [commandFlags, boundsOf_congr h]
  | sadd | ssub | smul | sdiv | gamma | bplane => rfl

end

/-! ### The two runs -/

/-- A command that is not rejected, seen from its output range. -/
theorem exec_outputByte {i : Instr} {s : State} (h : rejection i s = none) :
    ∃ r, exec i s = .next (complete none (commandFlags i s { s with ram := r }))
      ∧ ∀ a, OutputOffset i s a → r.get a = outputByte i s a := by
  obtain ⟨r, hw, he⟩ := exec_of_not_rejected h
  obtain ⟨-, hv⟩ := rejection_none h
  obtain ⟨-, -, hranges, -⟩ := (validate_none i s).1 hv
  refine ⟨r, he, fun a ha => hw.inside a ?_⟩
  rwa [mem_outputAddrs_of_ranges hranges, ← outputOffset_iff]

/-- The flags a command sets depend on what they were in DEGEN only, and an observed CSTR sets all of CSTOBS. -/
theorem commandFlags_agree (i : Instr) (s t t' : State) :
    (t.degen = t'.degen → (commandFlags i s t).degen = (commandFlags i s t').degen)
    ∧ (i = .cstr false → (commandFlags i s t).obsMin = (commandFlags i s t').obsMin
        ∧ (commandFlags i s t).obsMax = (commandFlags i s t').obsMax
        ∧ (commandFlags i s t).obsValid = (commandFlags i s t').obsValid) := by
  cases i with
  | cstr expl =>
    refine ⟨fun hd => by simp [commandFlags, stretchFlags, hd], fun hi => ?_⟩
    cases hi
    simp [commandFlags, stretchFlags]
  | sadd | ssub | smul | sdiv | gamma | bplane => exact ⟨id, fun hi => by cases hi⟩

/-- Settles O33: both runs are rejected with one code, or write the same output bytes and set the same flags. -/
theorem resultDependsOnlyOnParametersAndSource : Obligations.ResultDependsOnlyOnParametersAndSource := by
  intro i s s' h
  have hcode := rejection_congr h i
  cases hrej : rejection i s with
  | some e =>
    refine ⟨_, _, exec_of_rejected hrej, exec_of_rejected (hcode ▸ hrej), rfl, fun herr => ?_⟩
    have hpos := (errBits_some e).1
    rw [complete_err] at herr
    simp [herr] at hpos
  | none =>
    obtain ⟨-, hv⟩ := rejection_none hrej
    have hformat := (checkFormat_none s).1 ((validate_none i s).1 hv).1
    obtain ⟨r, he, hbyte⟩ := exec_outputByte hrej
    obtain ⟨r', he', hbyte'⟩ := exec_outputByte (hcode ▸ hrej)
    rw [← commandFlags_congr h] at he'
    refine ⟨_, _, he, he', rfl, fun _ => ⟨fun a ha => ?_, commandFlags_agree i s { s with ram := r } { s' with ram := r' }⟩⟩
    have hout : r.get a = r'.get a := by
      rw [hbyte a ha, hbyte' a ((outputOffset_congr h i a).1 ha), outputByte_congr h hformat ha]
    simpa [State.byte] using hout

end Sys2Proof.Machine
end

section
/-! PROOF. The order of the samples inside a command (20_memory.md R58): two turns of a loop commute when neither writes
an offset that the other reads or writes, and a loop whose turns commute gives the same result in every order. -/

namespace Sys2Proof.Machine

/-! ### Loops whose turns commute -/

/-- A loop that may stop gives the same result in every order, if its turns commute in every state. -/
theorem foldlM_perm {σ ι : Type} {f : σ → ι → Option σ} {l l' : List ι} (h : l.Perm l')
    (comm : ∀ i ∈ l, ∀ j ∈ l, i ≠ j → ∀ s, (f s i).bind (f · j) = (f s j).bind (f · i)) (s : σ) :
    l.foldlM f s = l'.foldlM f s := by
  rw [List.foldlM_eq_foldl, List.foldlM_eq_foldl]
  refine h.foldl_eq' (fun i hi j hj z => ?_) _
  by_cases hij : i = j
  · rw [hij]
  · cases z with
    | none => rfl
    | some r => exact comm i hi j hj hij r

theorem forOrder_perm {ι : Type} {body : ι → Memory → Option Memory} {l l' : List ι} (h : l.Perm l')
    (comm : ∀ i ∈ l, ∀ j ∈ l, i ≠ j → ∀ m, (body i m).bind (body j) = (body j m).bind (body i)) (m : Memory) :
    forOrder l body m = forOrder l' body m :=
  foldlM_perm h comm m

/-- The engine's own loop is the loop in rising order. -/
theorem forRange_eq_forOrder (n : Nat) (body : Nat → Memory → Option Memory) (m : Memory) :
    forRange n body m = forOrder (List.range n) body m := by
  induction n with
  | zero => rfl
  | succ k ih =>
    rw [forRange, ih, List.range_succ, forOrder, forOrder, List.foldlM_append]
    simp

/-- A loop of loops is one loop over pairs. -/
theorem forOrder_product {ι κ : Type} (l : List ι) (l' : List κ) (body : ι → κ → Memory → Option Memory) (m : Memory) :
    forOrder l (fun i => forOrder l' (body i)) m = forOrder (l.product l') (fun p => body p.1 p.2) m := by
  induction l generalizing m with
  | nil => rfl
  | cons i l ih =>
    have hsplit : (i :: l).product l' = l'.map (Prod.mk i) ++ l.product l' := List.product_cons i l l'
    simp only [forOrder] at ih
    rw [hsplit, forOrder, forOrder, List.foldlM_cons, List.foldlM_append, List.foldlM_map]
    exact congrArg _ (funext ih)

/-- A loop over samples that ends in `some r` in rising order does so in every order. -/
theorem forOrder_eq_of_forRange {n : Nat} {order : List Nat} {body : Nat → Memory → Option Memory} {m r : Memory}
    (h : order.Perm (List.range n)) (hr : forRange n body m = some r)
    (comm : ∀ i < n, ∀ j < n, i ≠ j → ∀ m, (body i m).bind (body j) = (body j m).bind (body i)) :
    forOrder order body m = some r := by
  have hlt : ∀ i ∈ order, i < n := fun i hi => List.mem_range.1 (h.mem_iff.1 hi)
  rw [forOrder_perm h fun i hi j hj => comm i (hlt i hi) j (hlt j hj), ← forRange_eq_forOrder, hr]

/-! ### Turns that commute -/

/-- One turn of the engine: the sample at offset `a`, mapped by `f`, goes to offset `b`. This is, by definition, the turn
of `mapSamples`, and with `a = b` that of `updateSamples` for a selected sample. -/
def moveSample (a b : Nat) (f : Byte → Byte) (m : Memory) : Option Memory := (m.read a).bind fun v => m.write b (f v)

theorem moveSample_eq (a b : Nat) (f : Byte → Byte) (m : Memory) :
    moveSample a b f m = if a < m.bytes ∧ b < m.bytes then some (m.set b (f (m.get a))) else none := by
  unfold moveSample Memory.read Memory.write
  by_cases ha : a < m.bytes <;> simp [ha]

/-- Two writes to different offsets commute. -/
theorem write_comm {b b' : Nat} (v v' : Byte) (hww : b ≠ b') (m : Memory) :
    (m.write b v).bind (·.write b' v') = (m.write b' v').bind (·.write b v) := by
  unfold Memory.write
  by_cases hb : b < m.bytes <;> by_cases hb' : b' < m.bytes <;> simp [hb, hb', set_comm m v v' hww]

/-- Two turns commute, if they write different offsets and neither writes the one that the other reads. -/
theorem moveSample_comm {a b a' b' : Nat} (f f' : Byte → Byte) (hww : b ≠ b') (hwr : a' ≠ b) (hrw : a ≠ b')
    (m : Memory) :
    (moveSample a b f m).bind (moveSample a' b' f') = (moveSample a' b' f' m).bind (moveSample a b f) := by
  simp only [moveSample_eq]
  by_cases h : a < m.bytes ∧ b < m.bytes <;> by_cases h' : a' < m.bytes ∧ b' < m.bytes <;>
    simp [h, h', get_set_other _ _ hwr, get_set_other _ _ hrw, set_comm m _ _ hww]

/-- The turn of the loop in place: a sample that is not selected is left alone. -/
theorem updateSample_comm (src : Nat) (p : Nat → Bool) (g : Byte → Byte) {i j : Nat} (hij : i ≠ j) (m : Memory) :
    (if p i then moveSample (src + i) (src + i) g m else some m).bind
        (fun m => if p j then moveSample (src + j) (src + j) g m else some m)
      = (if p j then moveSample (src + j) (src + j) g m else some m).bind
        (fun m => if p i then moveSample (src + i) (src + i) g m else some m) := by
  cases p i <;> cases p j <;> simp
  exact moveSample_comm g g (by omega) (by omega) (by omega) m

/-! ### The search for the bounds -/

theorem sampleBounds_eq_boundsOrder (src : Nat) (m : Memory) (n : Nat) :
    sampleBounds src m n = boundsOrder src m (List.range n) := by
  induction n with
  | zero => rfl
  | succ k ih =>
    rw [sampleBounds, ih, List.range_succ, boundsOrder, boundsOrder, List.foldlM_append]
    simp [Option.map_eq_bind]

/-- Least and greatest sample so far do not depend on which of two samples was seen first. -/
theorem boundsOrder_perm (src : Nat) (m : Memory) {l l' : List Nat} (h : l.Perm l') :
    boundsOrder src m l = boundsOrder src m l' := by
  refine foldlM_perm h (fun i _ j _ _ b => ?_) _
  cases m.read (src + i) <;> cases m.read (src + j) <;> simp [min_right_comm, max_right_comm]

/-- Inside sample RAM the search finds bounds; for an empty buffer see log 16. -/
theorem exists_sampleBounds_eq {src n : Nat} {m : Memory} (hs : src + n ≤ m.bytes) :
    ∃ b, sampleBounds src m n = some b := by
  rcases Nat.eq_zero_or_pos n with rfl | hn
  · exact ⟨_, rfl⟩
  · obtain ⟨lo, hi, hb, -⟩ := sampleBounds_spec src m n hn hs
    exact ⟨_, hb⟩

/-! ### Planes and samples mixed -/

/-- The turns of BPLANE, one for each plane and sample (43_bit_plane.md R103). -/
theorem planesBody_eq_forOrder (s : State) (m : Memory) :
    planesBody s m = forOrder ((List.range 8).product (List.range (s.H * s.W)))
      (fun p => moveSample (s.S + p.2) (s.D + p.1 * (s.H * s.W) + p.2) (planeSample p.1)) m := by
  rw [← forOrder_product _ _ fun k i => moveSample (s.S + i) (s.D + k * (s.H * s.W) + i) (planeSample k),
    planesBody, forRange_eq_forOrder]
  refine congrArg (forOrder _ · m) (funext fun k => funext fun r => ?_)
  exact forRange_eq_forOrder _ _ r

/-- The place of a sample among the `8 * n` bytes of the planes. -/
theorem planeOffset_lt {n k i : Nat} (hk : k < 8) (hi : i < n) : k * n + i < 8 * n :=
  Nat.mul_comm n k ▸ Nat.mul_comm n 8 ▸ Nat.mul_add_lt_mul_of_lt_of_lt hk hi

/-- Two turns of BPLANE that differ in the plane or in the sample write different bytes. -/
theorem planeOffset_inj {n : Nat} {p q : Nat × Nat} (hp : p.2 < n) (hq : q.2 < n) (h : p.1 * n + p.2 = q.1 * n + q.2) :
    p = q := by
  refine Prod.ext ?_ ?_
  · rw [← mul_add_div_of_lt p.1 hp, h, mul_add_div_of_lt q.1 hq]
  · rw [← Nat.mul_add_mod_of_lt (a := p.1) hp, h, Nat.mul_add_mod_of_lt hq]

/-- BPLANE in any order of its planes and samples. -/
theorem planesBody_eq_of_perm {s : State} {m : Memory} {planes : List (Nat × Nat)}
    (h : planes.Perm ((List.range 8).product (List.range (s.H * s.W))))
    (hsep : s.S + s.H * s.W ≤ s.D ∨ s.D + 8 * (s.H * s.W) ≤ s.S) :
    planesBody s m = forOrder planes
      (fun p => moveSample (s.S + p.2) (s.D + p.1 * (s.H * s.W) + p.2) (planeSample p.1)) m := by
  rw [planesBody_eq_forOrder]
  have hmem : ∀ p ∈ planes, p.1 < 8 ∧ p.2 < s.H * s.W := fun p hp => by
    simpa only [List.mem_range] using List.mem_product.1 (h.mem_iff.1 hp)
  refine (forOrder_perm h (fun p hp q hq hpq r => ?_) m).symm
  obtain ⟨hp1, hp2⟩ := hmem p hp
  obtain ⟨hq1, hq2⟩ := hmem q hq
  have hplt := planeOffset_lt hp1 hp2
  have hqlt := planeOffset_lt hq1 hq2
  have hne : p.1 * (s.H * s.W) + p.2 ≠ q.1 * (s.H * s.W) + q.2 := fun e => hpq (planeOffset_inj hp2 hq2 e)
  exact moveSample_comm _ _ (by omega) (by omega) (by omega) r

/-- Settles O34: each loop ends well in rising order, and its turns commute. -/
theorem sampleOrderIsNotObservable : Obligations.SampleOrderIsNotObservable := by
  intro m src dst n order _ horder hs
  refine ⟨fun g hd hsep => ?outOfPlace, fun p g => ?inPlace, fun v hd => ?fill, ?bounds,
    fun s planes hsrc hdst hn hplanes hd hsep => ?planes⟩
  case outOfPlace =>
    obtain ⟨r, hr, -⟩ := mapSamples_spec src dst n g m hs hd hsep
    exact ⟨r, hr, forOrder_eq_of_forRange horder hr fun i hi j hj hij =>
      moveSample_comm (g i) (g j) (by omega) (by omega) (by omega)⟩
  case inPlace =>
    obtain ⟨r, hr, -⟩ := updateSamples_spec src n p g m hs
    exact ⟨r, hr, forOrder_eq_of_forRange horder hr fun i _ j _ hij => updateSample_comm src p g hij⟩
  case fill =>
    obtain ⟨r, hr, -⟩ := fillSamples_spec dst n v m hd
    exact ⟨r, hr, forOrder_eq_of_forRange horder hr fun i _ j _ hij => write_comm v v (by omega)⟩
  case bounds =>
    obtain ⟨b, hb⟩ := exists_sampleBounds_eq hs
    exact ⟨b, hb, by rw [boundsOrder_perm src m horder, ← sampleBounds_eq_boundsOrder, hb]⟩
  case planes =>
    subst hsrc hdst hn
    obtain ⟨r, hr, -⟩ := planesBody_spec { s with ram := m } hs hd hsep
    exact ⟨r, hr, (planesBody_eq_of_perm hplanes hsep).symm.trans hr⟩

end Sys2Proof.Machine
end

section
/-! PROOF. Host transactions (20_memory.md R46 to R55): which of them are answered ERROR, sample RAM as little-endian
words, reads, and the step that performs a transaction. -/

namespace Sys2Proof.Machine

/-! ### Transactions answered ERROR -/

/-- R47: a misaligned transaction, or one of 1 or 2 bytes to the register region. -/
def BusError (x : BusTxn) : Prop := aligned x = false ∨ (x.offset.toNat < regionEnd ∧ x.size ≠ .four)

theorem aligned_eq_false_iff (x : BusTxn) :
    aligned x = false ↔ (x.size = .two ∧ x.offset.toNat % 2 ≠ 0) ∨ (x.size = .four ∧ x.offset.toNat % 4 ≠ 0) := by
  unfold aligned
  cases x.size <;> simp [sizeBytes, Nat.mod_one]

theorem busError_iff (x : BusTxn) :
    BusError x ↔ (x.size = .two ∧ x.offset.toNat % 2 ≠ 0) ∨ (x.size = .four ∧ x.offset.toNat % 4 ≠ 0)
      ∨ (x.offset.toNat ≤ 0xFF ∧ x.size ≠ .four) := by
  rw [BusError, aligned_eq_false_iff, or_assoc, regionEnd, Nat.lt_succ_iff]

theorem hostAccess_of_busError {x : BusTxn} (h : BusError x) (s : State) : hostAccess x s = (s, .error) := by
  unfold hostAccess
  rcases h with hal | ⟨hreg, hsize⟩
  · simp [hal]
  · simp [hreg, hsize]

theorem regAccess_ne_error (n : Nat) (acc : Access) (s : State) : (regAccess n acc s).2 ≠ .error := by
  cases acc <;> simp [regAccess]

theorem ramAccess_ne_error (a : Nat) (size : AccessSize) (acc : Access) (s : State) :
    (ramAccess a size acc s).2 ≠ .error := by
  unfold ramAccess
  cases acc <;> cases s.busy <;> simp

theorem reservedAccess_ne_error (acc : Access) (s : State) : (reservedAccess acc s).2 ≠ .error := by
  cases acc <;> simp [reservedAccess]

theorem hostAccess_ne_error {x : BusTxn} (h : ¬ BusError x) (s : State) : (hostAccess x s).2 ≠ .error := by
  obtain ⟨hal, hregister⟩ := not_or.1 h
  unfold hostAccess
  rw [if_neg (by simpa using hal)]
  split
  case isTrue hreg =>
    rw [if_pos (by_contra fun hsize => hregister ⟨hreg, hsize⟩)]
    exact regAccess_ne_error _ _ _
  case isFalse =>
    split
    · exact ramAccess_ne_error _ _ _ _
    · exact reservedAccess_ne_error _ _

/-- Settles O44: each region answers OK to what R47 does not exclude. -/
theorem busErrorsAreExactly : Obligations.BusErrorsAreExactly := by
  intro x s
  have hiff : (hostAccess x s).2 = .error ↔ BusError x :=
    ⟨fun he => by_contra fun h => hostAccess_ne_error h s he, fun h => by rw [hostAccess_of_busError h]⟩
  exact ⟨hiff.trans (busError_iff x), fun he => by rw [hostAccess_of_busError (hiff.1 he)]⟩

/-! ### Sample RAM -/

theorem sizeBytes_pos (size : AccessSize) : 0 < sizeBytes size := by cases size <;> decide

theorem ramAccess_write_idle {s : State} (h : s.busy = false) (a : Nat) (size : AccessSize) (w : Word) :
    ramAccess a size (.write w) s = ({ s with ram := s.ram.writeLE a size w }, .okWrite) := by simp [ramAccess, h]

theorem ramAccess_write_busy {s : State} (h : s.busy = true) (a : Nat) (size : AccessSize) (w : Word) :
    ramAccess a size (.write w) s = (dropWrite s, .okWrite) := by simp [ramAccess, h]

theorem ramAccess_read_idle {s : State} (h : s.busy = false) (a : Nat) (size : AccessSize) :
    ramAccess a size .read s = (s, .okRead (s.ram.readLE a size)) := by simp [ramAccess, h]

theorem ramAccess_read_busy {s : State} (h : s.busy = true) (a : Nat) (size : AccessSize) :
    ramAccess a size .read s
      = ({ s with draws := s.draws + 1 }, .okRead (joinBytes size fun i => Config.freeByte s.draws (a + i))) := by
  simp [ramAccess, h]

/-- The sum over an access's bytes, written out. The summand is a variable: with powers of 256 in it the kernel would
compute them in unary. -/
theorem sum_range_sizeBytes (size : AccessSize) (g : Nat → Nat) :
    ((List.range (sizeBytes size)).map g).sum
      = match size with
        | .one => g 0
        | .two => g 0 + g 1
        | .four => g 0 + g 1 + g 2 + g 3 := by
  cases size <;> simp [sizeBytes, List.range_succ, Nat.add_assoc]

/-- The word joined from bytes, as a number (20_memory.md R48). -/
theorem joinBytes_toNat (size : AccessSize) (f : Nat → Byte) :
    (joinBytes size f).toNat = ((List.range (sizeBytes size)).map fun i => (f i).toNat * 256 ^ i).sum := by
  rw [sum_range_sizeBytes]
  cases size with
  | one => rw [joinBytes_one]; ring
  | two => rw [joinBytes_two]; ring
  | four => rw [joinBytes_four]; ring

/-- Each byte joined is a byte of the word (20_memory.md R48). -/
theorem joinBytes_byte {size : AccessSize} {i : Nat} (hi : i < sizeBytes size) (f : Nat → Byte) :
    (joinBytes size f).toNat / 256 ^ i % 256 = (f i).toNat := by
  have h0 := (f 0).isLt
  have h1 := (f 1).isLt
  have h2 := (f 2).isLt
  have h3 := (f 3).isLt
  cases size with
  | one =>
    obtain rfl : i = 0 := by simpa [sizeBytes] using hi
    rw [joinBytes_one]; omega
  | two =>
    rw [joinBytes_two]
    simp only [sizeBytes] at hi
    interval_cases i <;> omega
  | four =>
    rw [joinBytes_four]
    simp only [sizeBytes] at hi
    interval_cases i <;> omega

/-- Settles O51: the write is `writeLE`, whose bytes `get_writeLE` gives. -/
theorem ramWriteIsLittleEndian : Obligations.RamWriteIsLittleEndian := by
  intro s x w a hidle hacc hoffset hal hfits
  have hpos := sizeBytes_pos x.size
  have haccess := hostAccess_ram hoffset hal (s := s) (by omega)
  rw [hacc, ramAccess_write_idle hidle] at haccess
  refine ⟨_, haccess, rfl, writeLE_topWord .., writeLE_draw .., fun i hi => ?stored, fun b hb => ?kept⟩
  case stored =>
    rw [State.byte, get_writeLE, if_pos (by omega), Nat.add_sub_cancel_left, byteOf_toNat]
  case kept => exact (get_writeLE ..).trans (if_neg hb)

/-- Settles O52. -/
theorem ramReadIsLittleEndian : Obligations.RamReadIsLittleEndian := by
  intro s x a hidle hacc hoffset hal hfits
  have hpos := sizeBytes_pos x.size
  have haccess := hostAccess_ram hoffset hal (s := s) (by omega)
  rw [hacc, ramAccess_read_idle hidle] at haccess
  exact ⟨_, haccess, joinBytes_toNat x.size _⟩

/-- Settles O53: the write is dropped, the read joins free bytes. -/
theorem ramWhileBusyIsOpaque : Obligations.RamWhileBusyIsOpaque := by
  intro s x a hbusy hoffset hal hin
  rw [hostAccess_ram hoffset hal hin]
  refine ⟨fun w hw => ?write, fun hr => ?read⟩
  case write => rw [hw, ramAccess_write_busy hbusy]; rfl
  case read => exact ⟨_, by rw [hr, ramAccess_read_busy hbusy], fun i hi => joinBytes_byte hi _⟩

/-- Settles O54: of a transaction's outcomes, those of a read keep the state or take a free draw. -/
theorem readsHaveNoSideEffect : Obligations.ReadsHaveNoSideEffect := by
  intro s x hread
  obtain h | ⟨v, -, h⟩ | ⟨v, -, -, h⟩ | ⟨w, hw, -⟩ | ⟨w, r, hw, -⟩ | ⟨w, hw, -⟩ | ⟨w, hw, -⟩ := hostAccess_cases x s
  · exact ⟨s.draws, by rw [h], le_rfl⟩
  · exact ⟨s.draws, by rw [h], le_rfl⟩
  · exact ⟨s.draws + 1, by rw [h], Nat.le_succ _⟩
  all_goals cases hread.symm.trans hw

/-! ### The host's turn -/

theorem regWrite_agenda (r : Reg) (w : Word) (s : State) : (regWrite r w s).agenda = s.agenda := by
  obtain ⟨-, h⟩ | ⟨-, -, h⟩ | ⟨-, h⟩ | ⟨-, h⟩ | ⟨-, -, h⟩ | ⟨-, h⟩ := regWrite_cases r w s
  · rw [h]
  · rw [h, dropWrite_agenda]
  · cases hsrst : w.getLsbD 1
    · rw [h, writeCtrl_of_not_srst hsrst]
    · rw [h, writeCtrl_of_srst hsrst, softReset_agenda]
  · rw [h, clearStatus_agenda]
  · rw [h, accept_agenda]
  · rw [h]

/-- No transaction changes what happens next. -/
theorem hostAccess_agenda (x : BusTxn) (s : State) : (hostAccess x s).1.agenda = s.agenda := by
  obtain h | ⟨v, -, h⟩ | ⟨v, -, -, h⟩ | ⟨w, -, h⟩ | ⟨w, r, -, -, -, -, -, h⟩ | ⟨w, -, -, -, -, -, h⟩
    | ⟨w, -, -, -, -, -, h⟩ := hostAccess_cases x s <;> rw [h]
  · exact regWrite_agenda r w s
  · exact dropWrite_agenda s

/-- Settles O9. -/
theorem hostStepPerformsTheTransaction : Obligations.HostStepPerformsTheTransaction := by
  intro s x rest hagenda
  exact ⟨_, step_eq_of_bus hagenda, rfl, hostAccess_agenda x { s with agenda := rest }⟩

end Sys2Proof.Machine
end

section
/-! PROOF. What a command leaves unchanged in sample RAM (20_memory.md R51). -/

namespace Sys2Proof.Machine

/-- What the model writes is in the output range of the spec. -/
theorem outputOffset_of_mem {i : Instr} {s : State} {a : Nat} (h : a ∈ outputAddrs i s) : OutputOffset i s a :=
  (outputOffset_iff i s a).2 ((mem_outputAddrs i s a).1 h).2

/-- Settles O32: a rejected command keeps sample RAM, any other rewrites its output range. -/
theorem commandsWriteOnlyTheirOutputRange : Obligations.CommandsWriteOnlyTheirOutputRange := by
  intro i s t a hexec houtside
  cases hrej : rejection i s with
  | some e =>
    cases (exec_of_rejected hrej).symm.trans hexec
    rfl
  | none =>
    obtain ⟨r, hw, he⟩ := exec_of_not_rejected hrej
    cases he.symm.trans hexec
    rw [State.byte, complete_ram, commandFlags_ram]
    exact hw.outside a (mt outputOffset_of_mem houtside)

end Sys2Proof.Machine
end

section
/-! PROOF. Command words and commands (30_encoding.md R64 to R68): the fields of a word as numbers, which words decode
and to which command, and that `encode` and `decode` undo each other. -/

namespace Sys2Proof

/-! ### The fields of a word as numbers (R65) -/

theorem extractLsb'_toNat_eq (w : Word) (start len : Nat) :
    (w.extractLsb' start len).toNat = w.toNat / 2 ^ start % 2 ^ len := by
  rw [BitVec.extractLsb'_toNat, Nat.shiftRight_eq_div_pow]

theorem getLsbD_toNat (w : Word) (i : Nat) : (w.getLsbD i).toNat = w.toNat / 2 ^ i % 2 :=
  Nat.toNat_testBit w.toNat i

theorem getLsbD_eq_iff (w : Word) (i : Nat) (b : Bool) : w.getLsbD i = b ↔ w.toNat / 2 ^ i % 2 = b.toNat := by
  rw [← getLsbD_toNat]
  cases b <;> simp

theorem opField_toNat (w : Word) : (opField w).toNat = w.toNat % 16 := by
  rw [opField, extractLsb'_toNat_eq, Nat.pow_zero, Nat.div_one]
  rfl

theorem reservedField_eq_zero_iff (w : Word) : reservedField w = 0#22 ↔ w.toNat / 2 ^ 10 = 0 := by
  rw [← BitVec.toNat_inj, reservedField, extractLsb'_toNat_eq]
  have := w.isLt
  simp only [BitVec.toNat_ofNat]
  omega

theorem flagField_eq_zero_iff (w : Word) (len : Nat) :
    w.extractLsb' 4 len = 0#len ↔ w.toNat / 16 % 2 ^ len = 0 := by
  rw [← BitVec.toNat_inj, extractLsb'_toNat_eq, BitVec.toNat_ofNat, Nat.zero_mod]
  rfl

theorem packWord_toNat (expl inplace : Bool) (chsel : BitVec 2) (chen perch : Bool) (op : BitVec 4) :
    (packWord expl inplace chsel chen perch op).toNat
      = op.toNat + 16 * perch.toNat + 32 * chen.toNat + 64 * chsel.toNat + 256 * inplace.toNat + 512 * expl.toNat := by
  unfold packWord
  simp only [Machine.toNat_concat, BitVec.toNat_ofBool, BitVec.toNat_ofNat]
  omega

/-! ### Packing and reading back -/

/-- Each field of a packed word is what was packed. -/
@[simp] theorem fields_packWord (expl inplace : Bool) (chsel : BitVec 2) (chen perch : Bool) (op : BitVec 4) :
    reservedField (packWord expl inplace chsel chen perch op) = 0#22
    ∧ explField (packWord expl inplace chsel chen perch op) = expl
    ∧ inplaceField (packWord expl inplace chsel chen perch op) = inplace
    ∧ chselField (packWord expl inplace chsel chen perch op) = chsel
    ∧ chenField (packWord expl inplace chsel chen perch op) = chen
    ∧ perchField (packWord expl inplace chsel chen perch op) = perch
    ∧ opField (packWord expl inplace chsel chen perch op) = op := by
  have hop := op.isLt
  have hchsel := chsel.isLt
  have hperch := perch.toNat_lt
  have hchen := chen.toNat_lt
  have hinplace := inplace.toNat_lt
  have hexpl := expl.toNat_lt
  rw [reservedField_eq_zero_iff]
  simp only [← BitVec.toNat_inj, explField, inplaceField, chselField, chenField, perchField, opField_toNat,
    getLsbD_eq_iff, extractLsb'_toNat_eq, packWord_toNat]
  omega

/-- A word whose reserved bits are 0 is made of its fields. -/
theorem packWord_fields {w : Word} (h : reservedField w = 0#22) :
    packWord (explField w) (inplaceField w) (chselField w) (chenField w) (perchField w) (opField w) = w := by
  rw [reservedField_eq_zero_iff] at h
  rw [← BitVec.toNat_inj, packWord_toNat, opField_toNat]
  simp only [explField, inplaceField, chselField, chenField, perchField, getLsbD_toNat, extractLsb'_toNat_eq]
  omega

/-- A word without PERCH, CHEN, CHSEL and INPLACE is made of OP and EXPL. -/
theorem packWord_of_no_flags {w : Word} (hr : reservedField w = 0#22) (hf : w.extractLsb' 4 5 = 0#5) :
    packWord (explField w) false 0#2 false false (opField w) = w := by
  rw [reservedField_eq_zero_iff] at hr
  rw [flagField_eq_zero_iff] at hf
  rw [← BitVec.toNat_inj, packWord_toNat, opField_toNat, explField, getLsbD_toNat]
  simp only [Bool.toNat_false, BitVec.toNat_ofNat]
  omega

/-- The six flag bits of GAMMA and BPLANE are the five of CSTR and EXPL (R68). -/
theorem sixFlags_eq_zero_iff (w : Word) :
    w.extractLsb' 4 6 = 0#6 ↔ w.extractLsb' 4 5 = 0#5 ∧ explField w = false := by
  rw [flagField_eq_zero_iff, flagField_eq_zero_iff, explField, getLsbD_eq_iff, Bool.toNat_false]
  omega

/-! ### Which words decode -/

/-- The saturating-arithmetic rows of R67: opcode and command. -/
def satOpcodes : List (BitVec 4 × (SatMods → Instr)) :=
  [(1#4, .sadd), (2#4, .ssub), (3#4, .smul), (4#4, .sdiv)]

theorem mem_satOpcodes_iff {op : BitVec 4} {mk : SatMods → Instr} :
    (op, mk) ∈ satOpcodes ↔
      (op = 1#4 ∧ mk = .sadd) ∨ (op = 2#4 ∧ mk = .ssub) ∨ (op = 3#4 ∧ mk = .smul) ∨ (op = 4#4 ∧ mk = .sdiv) := by
  simp [satOpcodes]

/-- The rows as the model has them: the command's opcode, and when its word is legal. -/
theorem encode_of_mem_satOpcodes {op : BitVec 4} {mk : SatMods → Instr} (h : (op, mk) ∈ satOpcodes) (m : SatMods) :
    encode (mk m) = encodeSat op m ∧ (mk m).wellFormed = m.legal := by
  obtain ⟨rfl, rfl⟩ | ⟨rfl, rfl⟩ | ⟨rfl, rfl⟩ | ⟨rfl, rfl⟩ := mem_satOpcodes_iff.1 h <;> exact ⟨rfl, rfl⟩

theorem exists_mem_satOpcodes_iff (op : BitVec 4) :
    (∃ mk, (op, mk) ∈ satOpcodes) ↔ 1 ≤ op.toNat ∧ op.toNat ≤ 4 := by
  simp only [mem_satOpcodes_iff, exists_or, exists_and_left, exists_eq, and_true]
  revert op
  decide

theorem decodeSat_eq_ok_iff (mk : SatMods → Instr) (w : Word) (i : Instr) :
    decodeSat mk w = .ok i ↔ explField w = false ∧ (satFields w).legal = true ∧ mk (satFields w) = i := by
  unfold decodeSat SatMods.legal
  split_ifs <;> simp_all

theorem ite_ok_eq_ok_iff {c : Prop} [Decidable c] {i j : Instr} {e : DecodeError} :
    (if c then Except.ok j else .error e) = .ok i ↔ c ∧ i = j := by
  split <;> simp [*, eq_comm]

/-- Everything the decoder can answer with a command (R67, R68). -/
theorem decode_eq_ok_iff (w : Word) (i : Instr) :
    decode w = .ok i ↔ reservedField w = 0#22 ∧
      ((∃ mk, (opField w, mk) ∈ satOpcodes ∧ decodeSat mk w = .ok i)
      ∨ (opField w = 5#4 ∧ w.extractLsb' 4 6 = 0#6 ∧ i = .gamma)
      ∨ (opField w = 6#4 ∧ w.extractLsb' 4 5 = 0#5 ∧ i = .cstr (explField w))
      ∨ (opField w = 7#4 ∧ w.extractLsb' 4 6 = 0#6 ∧ i = .bplane)) := by
  unfold decode
  by_cases hr : reservedField w = 0#22
  · simp only [hr, ne_eq, not_true_eq_false, if_false, true_and]
    split
    case h_8 => simp_all [mem_satOpcodes_iff]
    all_goals rename_i hop; simp [hop, mem_satOpcodes_iff, ite_ok_eq_ok_iff]
  · simp [hr]

/-- The two relations R68 asks between fields, bit by bit. -/
theorem satFields_legal_iff (w : Word) :
    (satFields w).legal = true ↔
      (w.getLsbD 5 = true ∨ (w.getLsbD 7 = false ∧ w.getLsbD 6 = false))
      ∧ (w.getLsbD 8 = false ∨ w.getLsbD 5 = true) := by
  have hchsel : chselField w = 0#2 ↔ w.getLsbD 7 = false ∧ w.getLsbD 6 = false := by
    rw [← BitVec.toNat_inj, chselField, extractLsb'_toNat_eq, getLsbD_eq_iff, getLsbD_eq_iff]
    simp only [BitVec.toNat_ofNat, Bool.toNat_false]
    omega
  simp [SatMods.legal, SatMods.selectorLegal, SatMods.inplaceLegal, satFields, chenField, inplaceField, hchsel]

/-- The words that decode at all: a saturating-arithmetic opcode with its two relations between fields, or another
opcode without the flags it does not use (R68). -/
theorem exists_decode_iff (w : Word) :
    (∃ i, decode w = .ok i) ↔ reservedField w = 0#22 ∧
      (((1 ≤ (opField w).toNat ∧ (opField w).toNat ≤ 4) ∧ explField w = false ∧ (satFields w).legal = true)
      ∨ (opField w = 5#4 ∧ w.extractLsb' 4 6 = 0#6)
      ∨ (opField w = 6#4 ∧ w.extractLsb' 4 5 = 0#5)
      ∨ (opField w = 7#4 ∧ w.extractLsb' 4 6 = 0#6)) := by
  simp only [decode_eq_ok_iff, decodeSat_eq_ok_iff, exists_and_left, exists_or, exists_eq, and_true,
    ← exists_mem_satOpcodes_iff]
  constructor
  · rintro ⟨hr, ⟨i, mk, hmem, he, hlegal, -⟩ | hother⟩
    · exact ⟨hr, .inl ⟨⟨mk, hmem⟩, he, hlegal⟩⟩
    · exact ⟨hr, .inr hother⟩
  · rintro ⟨hr, ⟨⟨mk, hmem⟩, he, hlegal⟩ | hother⟩
    · exact ⟨hr, .inl ⟨_, mk, hmem, he, hlegal, rfl⟩⟩
    · exact ⟨hr, .inr hother⟩

/-! ### `encode` and `decode` undo each other -/

theorem decode_encodeSat {op : BitVec 4} {mk : SatMods → Instr} (h : (op, mk) ∈ satOpcodes) {m : SatMods}
    (hm : m.legal = true) : decode (encodeSat op m) = .ok (mk m) := by
  have hfields : satFields (encodeSat op m) = m := by simp [satFields, encodeSat]
  refine (decode_eq_ok_iff _ _).2 ⟨by simp [encodeSat], .inl ⟨mk, by simpa [encodeSat] using h, ?_⟩⟩
  rw [decodeSat_eq_ok_iff, hfields]
  exact ⟨by simp [encodeSat], hm, rfl⟩

theorem encode_satFields {w : Word} (hr : reservedField w = 0#22) (he : explField w = false) :
    encodeSat (opField w) (satFields w) = w := by
  have h := packWord_fields hr
  rwa [he] at h

theorem decode_encode {i : Instr} (h : i.wellFormed = true) : decode (encode i) = .ok i := by
  cases i with
  | sadd m => exact decode_encodeSat (by simp [mem_satOpcodes_iff]) h
  | ssub m => exact decode_encodeSat (by simp [mem_satOpcodes_iff]) h
  | smul m => exact decode_encodeSat (by simp [mem_satOpcodes_iff]) h
  | sdiv m => exact decode_encodeSat (by simp [mem_satOpcodes_iff]) h
  | gamma => rfl
  | bplane => rfl
  | cstr expl => cases expl <;> rfl

theorem encode_of_decode {w : Word} {i : Instr} (h : decode w = .ok i) : i.wellFormed = true ∧ encode i = w := by
  obtain ⟨hr, ⟨mk, hmem, hsat⟩ | ⟨hop, hf, rfl⟩ | ⟨hop, hf, rfl⟩ | ⟨hop, hf, rfl⟩⟩ := (decode_eq_ok_iff w i).1 h
  case inl =>
    obtain ⟨he, hlegal, rfl⟩ := (decodeSat_eq_ok_iff mk w i).1 hsat
    obtain ⟨henc, hwf⟩ := encode_of_mem_satOpcodes hmem (satFields w)
    exact ⟨hwf.trans hlegal, henc.trans (encode_satFields hr he)⟩
  case inr.inr.inl =>
    have hw := packWord_of_no_flags hr hf
    rw [hop] at hw
    exact ⟨rfl, hw⟩
  all_goals
    obtain ⟨hf, he⟩ := (sixFlags_eq_zero_iff w).1 hf
    have hw := packWord_of_no_flags hr hf
    rw [hop, he] at hw
    exact ⟨rfl, hw⟩

/-- Settles O1: a packed word gives each field back, so every clause of the decoder passes. -/
theorem decodeInvertsEncode : Obligations.DecodeInvertsEncode :=
  fun _ h => decode_encode h

/-- Settles O2: the word that decodes is the packing of its fields. -/
theorem encodeInvertsDecode : Obligations.EncodeInvertsDecode :=
  fun _ _ h => encode_of_decode h

/-- Settles O3: what the decoder asks of the fields, as numbers, is R68's list case by case of OP. -/
theorem decoderTakesExactlyTheLegalWords : Obligations.DecoderTakesExactlyTheLegalWords := by
  intro w
  rw [exists_decode_iff, satFields_legal_iff, reservedField_eq_zero_iff, flagField_eq_zero_iff, flagField_eq_zero_iff]
  simp only [← BitVec.toNat_inj, opField_toNat, explField, BitVec.toNat_ofNat, getLsbD_eq_iff, Bool.toNat_false,
    Bool.toNat_true]
  omega

theorem decode_of_encode {i : Instr} {w : Word} (hi : i.wellFormed = true) (hw : encode i = w) : decode w = .ok i :=
  hw ▸ decode_encode hi

/-- Settles O4: each example word is the word of its command. -/
theorem exampleWordsDecode : Obligations.ExampleWordsDecode :=
  ⟨decode_of_encode rfl rfl, decode_of_encode rfl rfl, decode_of_encode rfl rfl, decode_of_encode rfl rfl,
    decode_of_encode rfl rfl, decode_of_encode rfl rfl, decode_of_encode rfl rfl⟩

/-- Settles O5: a line that is not refused is the word of a well-formed command. -/
theorem assemblerEmitsOnlyLegalWords : Obligations.AssemblerEmitsOnlyLegalWords := by
  intro n fs w h
  obtain ⟨i, hi, rfl⟩ := Option.map_eq_some_iff.1 h
  exact ⟨i, decode_encode (Option.filter_eq_some_iff.1 hi).2⟩

end Sys2Proof
end

section
/-! PROOF. The step on a command word (30_encoding.md R69 to R72): acceptance, the engine's turn on a legal and on an
illegal word, and what moves BUSY and DONE. -/

namespace Sys2Proof.Machine

/-! ### Every move goes on -/

/-- Every command completes: a next state, idle, with DONE set (30_encoding.md R71). -/
theorem exec_completes (i : Instr) (s : State) : ∃ t, exec i s = .next t ∧ t.busy = false ∧ t.done = true := by
  cases hrej : rejection i s with
  | some e => exact ⟨_, exec_of_rejected hrej, rfl, rfl⟩
  | none =>
    obtain ⟨r, -, he⟩ := exec_of_not_rejected hrej
    exact ⟨_, he, rfl, rfl⟩

theorem engineTurn_of_legal {s : State} {i : Instr} (hb : s.busy = true) (hd : decode s.cmd = .ok i) :
    engineTurn s = exec i s := by
  simp [engineTurn, hb, hd]

theorem engineTurn_of_illegal {s : State} (hb : s.busy = true) (hd : ∀ i, decode s.cmd ≠ .ok i) :
    engineTurn s = .next (complete (some .illegalCmd) s) := by
  cases hw : decode s.cmd with
  | ok i => exact absurd hw (hd i)
  | error e => simp [engineTurn, hb, hw]

theorem engineTurn_of_idle {s : State} (hb : s.busy = false) : engineTurn s = .next s := by
  simp [engineTurn, hb]

theorem exists_engineTurn_eq_next (s : State) : ∃ t, engineTurn s = .next t := by
  cases hb : s.busy
  · exact ⟨s, engineTurn_of_idle hb⟩
  · by_cases hd : ∃ i, decode s.cmd = .ok i
    · obtain ⟨i, hi⟩ := hd
      obtain ⟨t, ht, -⟩ := exec_completes i s
      exact ⟨t, (engineTurn_of_legal hb hi).trans ht⟩
    · exact ⟨_, engineTurn_of_illegal hb (not_exists.1 hd)⟩

theorem exists_step_eq_next (s : State) : ∃ t, step s = .next t := by
  unfold step
  cases nextEvent s with
  | bus x => exact ⟨_, rfl⟩
  | engine => exact exists_engineTurn_eq_next _
  | powerOn => exact ⟨_, rfl⟩

theorem run_succ_of_step (k : Nat) {s s' : State} (h : step s = .next s') :
    Host.Core.run Sys2Proof.core (k + 1) s = Host.Core.run Sys2Proof.core k s' := by
  have hcore : Sys2Proof.core.step s = .next s' := h
  simp only [Host.Core.run, hcore]

/-- Settles O36, by induction on the length of the run. -/
theorem noRunStops : Obligations.NoRunStops := by
  intro k
  induction k with
  | zero => exact fun s => ⟨s, rfl⟩
  | succ k ih =>
    intro s
    obtain ⟨s', hstep⟩ := exists_step_eq_next s
    obtain ⟨t, hrun⟩ := ih s'
    exact ⟨t, (run_succ_of_step k hstep).trans hrun⟩

/-! ### The engine's turn on the word in flight -/

/-- Settles O6. -/
theorem stepRunsTheDecodedCommand : Obligations.StepRunsTheDecodedCommand := by
  intro s i hb hd
  refine ⟨fun rest hagenda => ?turn, fun hempty => ?used⟩
  case turn => exact (step_eq_of_engine hagenda).trans (engineTurn_of_legal hb hd)
  case used => exact (step_eq_of_nil hempty).trans (engineTurn_of_legal hb hd)

/-- Settles O7. -/
theorem illegalWordRaisesIllegalCmd : Obligations.IllegalWordRaisesIllegalCmd := by
  intro s hb hd
  refine ⟨fun rest hagenda => ?turn, fun hempty => ?used⟩
  case turn => exact (step_eq_of_engine hagenda).trans (engineTurn_of_illegal hb hd)
  case used => exact (step_eq_of_nil hempty).trans (engineTurn_of_illegal hb hd)

/-! ### Acceptance -/

theorem writeWord_cmd (w : Word) (s : State) : writeWord 0x10#25 w s = (regWrite .cmd w s, .okWrite) :=
  writeWord_reg w s (by decide) (by decide) (by decide)

/-- Settles O10. -/
theorem acceptanceStoresTheWordAndSetsBusy : Obligations.AcceptanceStoresTheWordAndSetsBusy := by
  intro s w
  refine ⟨fun hidle => (writeWord_cmd w s).trans ?accepted, fun hbusy => (writeWord_cmd w s).trans ?dropped⟩
  case accepted => rw [regWrite_of_not_frozen (by simp [hidle])]; rfl
  case dropped => rw [regWrite_of_frozen hbusy rfl]; rfl

/-! ### What moves BUSY and DONE -/

/-- A transaction that is no register write leaves BUSY and DONE. -/
theorem hostAccess_flags (x : BusTxn) (s : State) :
    ((hostAccess x s).1.busy = s.busy ∧ (hostAccess x s).1.done = s.done)
    ∨ ∃ r w, x = { offset := regOffset r, size := .four, access := .write w } ∧ (hostAccess x s).1 = regWrite r w s := by
  obtain h | ⟨v, -, h⟩ | ⟨v, -, -, h⟩ | ⟨w, -, h⟩ | ⟨w, r, hw, hsize, -, -, hr, h⟩ | ⟨w, -, -, -, -, -, h⟩
    | ⟨w, -, -, -, -, -, h⟩ := hostAccess_cases x s
  case inr.inr.inr.inr.inl =>
    have hoffset : x.offset = regOffset r := BitVec.eq_of_toNat_eq (regAt_inj hr (regAt_regOffset r))
    obtain ⟨offset, size, access⟩ := x
    subst hoffset hsize hw
    exact .inr ⟨r, w, rfl, by rw [h]⟩
  all_goals exact .inl (by rw [h]; exact ⟨rfl, rfl⟩)

/-- Only an accepted command and a soft reset move BUSY from a register, and DONE falls at most. -/
theorem regWrite_flags (r : Reg) (w : Word) (s : State) :
    ((regWrite r w s).done = true → s.done = true)
    ∧ ((regWrite r w s).busy = s.busy
      ∨ (r = .cmd ∧ s.busy = false ∧ (regWrite r w s).busy = true ∧ (regWrite r w s).cmd = w)
      ∨ (r = .ctrl ∧ w.getLsbD 1 = true ∧ (regWrite r w s).busy = false)) := by
  obtain ⟨-, h⟩ | ⟨-, -, h⟩ | ⟨rfl, h⟩ | ⟨-, h⟩ | ⟨rfl, hidle, h⟩ | ⟨-, h⟩ := regWrite_cases r w s
  · rw [h]; exact ⟨id, .inl rfl⟩
  · rw [h]; exact ⟨id, .inl rfl⟩
  · cases hsrst : w.getLsbD 1
    · rw [h, writeCtrl_of_not_srst hsrst]; exact ⟨id, .inl rfl⟩
    · rw [h, writeCtrl_of_srst hsrst]; exact ⟨by simp, .inr (.inr ⟨rfl, rfl, rfl⟩)⟩
  · rw [h]; exact ⟨by simp +contextual, .inl rfl⟩
  · rw [h]; exact ⟨by simp, .inr (.inl ⟨rfl, hidle, rfl, rfl⟩)⟩
  · rw [h]; exact ⟨id, .inl rfl⟩

/-- The engine's turn does nothing while idle and completes a command while busy. -/
theorem engineTurn_flags {s t : State} (h : engineTurn s = .next t) :
    (s.busy = false ∧ t = s) ∨ (s.busy = true ∧ t.busy = false ∧ t.done = true) := by
  obtain ⟨hidle, rfl⟩ | ⟨hb, rfl⟩ | ⟨hb, i, -, he⟩ := engineTurn_cases h
  · exact .inl ⟨hidle, rfl⟩
  · exact .inr ⟨hb, rfl, rfl⟩
  · obtain ⟨t', ht', hidle, hdone⟩ := exec_completes i s
    cases ht'.symm.trans he
    exact .inr ⟨hb, hidle, hdone⟩

theorem hostAccess_done {x : BusTxn} {s : State} (h : (hostAccess x s).1.done = true) : s.done = true := by
  obtain ⟨-, hdone⟩ | ⟨r, w, -, hreg⟩ := hostAccess_flags x s
  · rwa [← hdone]
  · rw [hreg] at h
    exact (regWrite_flags r w s).1 h

/-- Settles O55: no transaction and no reset sets DONE. -/
theorem doneRisesOnlyAtCompletion : Obligations.DoneRisesOnlyAtCompletion := by
  intro s t h hclear hset
  obtain ⟨x, -, rfl⟩ | ⟨hengine, he⟩ | ⟨-, rfl⟩ := step_cases h
  case inl =>
    have hdone : s.done = true := hostAccess_done (s := popEvent s) hset
    simp [hclear] at hdone
  case inr.inl =>
    obtain ⟨-, rfl⟩ | ⟨hbusy, hidle, -⟩ := engineTurn_flags he
    · simp [hclear] at hset
    · exact ⟨hengine, hbusy, hidle⟩
  case inr.inr => simp at hset

/-- A transaction moves BUSY in two ways: an accepted command (30_encoding.md R70) and a soft reset
(70_reset_and_hazards.md R128). -/
theorem hostAccess_busy (x : BusTxn) (s : State) :
    (hostAccess x s).1.busy = s.busy
    ∨ (s.busy = false ∧ ∃ w, x = { offset := 0x10#25, size := .four, access := .write w } ∧ (hostAccess x s).1.cmd = w)
    ∨ ((hostAccess x s).1.busy = false
      ∧ ∃ w, w.getLsbD 1 = true ∧ x = { offset := 0x8#25, size := .four, access := .write w }) := by
  obtain ⟨hbusy, -⟩ | ⟨r, w, hx, hreg⟩ := hostAccess_flags x s
  · exact .inl hbusy
  · rw [hreg]
    obtain hsame | ⟨rfl, hidle, -, hcmd⟩ | ⟨rfl, hsrst, hidle⟩ := (regWrite_flags r w s).2
    · exact .inl hsame
    · exact .inr (.inl ⟨hidle, w, hx, hcmd⟩)
    · exact .inr (.inr ⟨hidle, w, hsrst, hx⟩)

/-- Settles O56: the move of the step that has both. -/
theorem busyFollowsAcceptanceAndCompletion : Obligations.BusyFollowsAcceptanceAndCompletion := by
  intro s t h
  obtain ⟨x, hx, rfl⟩ | ⟨hengine, he⟩ | ⟨hpower, rfl⟩ := step_cases h
  case inl =>
    have hbusy : (hostTurn x (popEvent s)).busy = (hostAccess x (popEvent s)).1.busy := rfl
    obtain hsame | ⟨hidle, w, rfl, hcmd⟩ | ⟨hidle, w, hsrst, rfl⟩ := hostAccess_busy x (popEvent s)
    · rw [hbusy, hsame]
      simp +contextual
    · rw [popEvent_busy] at hidle
      exact ⟨fun _ _ => ⟨w, hx, hcmd⟩, by simp [hidle]⟩
    · exact ⟨by simp [hbusy, hidle], fun _ _ => .inr (.inr ⟨w, hsrst, hx⟩)⟩
  case inr.inl =>
    obtain ⟨hidle, rfl⟩ | ⟨hbusy, hidle, hdone⟩ := engineTurn_flags he
    · rw [popEvent_busy] at hidle
      simp [hidle]
    · exact ⟨by simp [hidle], fun _ _ => .inl ⟨hengine, hdone⟩⟩
  case inr.inr => exact ⟨by simp, fun _ _ => .inr (.inl hpower)⟩

end Sys2Proof.Machine
end

section
/-! PROOF. The frame of a command (30_encoding.md R71): what it leaves unchanged outside sample RAM. -/

namespace Sys2Proof.Machine

/-- Settles O31: an error is a completion alone, other commands change sample RAM, and CSTR its flags. -/
theorem commandsChangeOnlyTheirResults : Obligations.CommandsChangeOnlyTheirResults := by
  intro i s t h
  obtain ⟨-, he⟩ | ⟨-, e, -, he⟩ | ⟨-, -, r, v, hram, ⟨-, he⟩ | ⟨expl, b, rfl, -, he⟩⟩ := exec_cases i s
  all_goals cases he.symm.trans h
  case inl => exact ⟨rfl, rfl, rfl, fun _ => rfl, fun _ => ⟨rfl, rfl, rfl⟩⟩
  case inr.inl => exact ⟨rfl, rfl, rfl, fun _ => rfl, fun _ => ⟨rfl, rfl, rfl⟩⟩
  case inr.inr.inl => exact ⟨rfl, hram.topWord, hram.draw, fun _ => rfl, fun _ => ⟨rfl, rfl, rfl⟩⟩
  case inr.inr.inr =>
    refine ⟨rfl, hram.topWord, hram.draw, fun hne => (hne expl rfl).elim, fun hne => ?_⟩
    cases expl with
    | true => simp
    | false => exact (hne rfl).elim

end Sys2Proof.Machine
end

section
/-! PROOF. The sample functions of saturating arithmetic (40_saturating_arithmetic.md R81 to R84) as formulas over the
rationals, and their laws (R85). -/

namespace Sys2Proof.Machine

/-! ### Rounded quotients -/

theorem rndDiv_mono {a b den : Int} (hden : 0 < den) (h : a ≤ b) : rndDiv a den ≤ rndDiv b den := by
  rw [rndDiv_eq_rnd (K := ℚ) a den hden.ne', rndDiv_eq_rnd (K := ℚ) b den hden.ne']
  have hden' : (0 : ℚ) < den := by exact_mod_cast hden
  exact rnd_mono (by gcongr)

/-- An exact quotient is not rounded. -/
theorem rndDiv_mul_self (n : Int) {den : Int} (hden : den ≠ 0) : rndDiv (n * den) den = n := by
  have hden' : (den : ℚ) ≠ 0 := by exact_mod_cast hden
  rw [rndDiv_eq_rnd (K := ℚ) _ den hden, Int.cast_mul, mul_div_cancel_right₀ _ hden', rnd_intCast]

/-- A quotient that is not negative is clamped from above only. -/
theorem clampByte_rndDiv_toNat {num den : Int} (hnum : 0 ≤ num) (hden : 0 < den) :
    ((clampByte (rndDiv num den)).toNat : Int) = min 255 (rnd ((num : ℚ) / den)) := by
  have hnum' : (0 : ℚ) ≤ num := by exact_mod_cast hnum
  have hden' : (0 : ℚ) < den := by exact_mod_cast hden
  rw [clampByte_toNat, rndDiv_eq_rnd (K := ℚ) num den hden.ne', max_eq_right (rnd_nonneg (by positivity))]

/-- A quotient of at least `v` rounds to at least `v`. -/
theorem le_clampByte_rndDiv (v : Byte) {num den : Int} (hden : 0 < den) (h : (v.toNat : Int) * den ≤ num) :
    v.toNat ≤ (clampByte (rndDiv num den)).toNat := by
  have hle : (v.toNat : Int) ≤ rndDiv num den := by
    rw [← rndDiv_mul_self (v.toNat : Int) hden.ne']
    exact rndDiv_mono hden h
  simpa using clampByte_mono hle

/-! ### The formulas -/

theorem saddSample_toNat (v : Byte) (n : Word) :
    ((saddSample v n).toNat : Int) = min 255 ((v.toNat : Int) + n.toNat) := by
  rw [saddSample, clampByte_toNat]
  omega

theorem ssubSample_toNat (v : Byte) (n : Word) :
    ((ssubSample v n).toNat : Int) = max 0 ((v.toNat : Int) - n.toNat) := by
  have hv := v.isLt
  rw [ssubSample, clampByte_toNat]
  omega

theorem smulSample_toNat (v : Byte) (m : Word) :
    ((smulSample v m).toNat : Int) = min 255 (rnd ((v.toNat : ℚ) * ((m.toNat : ℚ) / 65536))) := by
  rw [smulSample, clampByte_rndDiv_toNat (by positivity) (by norm_num)]
  push_cast
  rw [mul_div_assoc]

theorem word_toNat_pos {n : Word} (h : n ≠ 0#32) : 0 < n.toNat :=
  Nat.pos_of_ne_zero fun h0 => h (BitVec.eq_of_toNat_eq h0)

theorem sdivSample_toNat (v : Byte) {m : Word} (hm : m ≠ 0#32) :
    ((sdivSample v m).toNat : Int) = min 255 (rnd ((v.toNat : ℚ) / ((m.toNat : ℚ) / 65536))) := by
  rw [sdivSample, clampByte_rndDiv_toNat (by positivity) (by exact_mod_cast word_toNat_pos hm)]
  push_cast
  rw [div_div_eq_mul_div]

/-! ### The laws (R85) -/

/-- Settles O16: clamping and rounding are monotone, and so is the exact value under them. -/
theorem sampleFunctionsAreMonotone : Obligations.SampleFunctionsAreMonotone := by
  intro v v' n h
  have hscale : ∀ c : Nat, (v.toNat : Int) * c ≤ (v'.toNat : Int) * c := fun c => by gcongr
  refine ⟨?sadd, ?ssub, ?smul, ?sdiv⟩
  case sadd => exact clampByte_mono (by omega)
  case ssub => exact clampByte_mono (by omega)
  case smul => exact clampByte_mono (rndDiv_mono (by norm_num) (hscale n.toNat))
  case sdiv =>
    intro hn
    exact clampByte_mono (rndDiv_mono (by exact_mod_cast word_toNat_pos hn) (hscale 65536))

/-- Settles O17: a sum, a product with a factor of at least 1 and a quotient by at most 1 are at least `v`. -/
theorem sampleFunctionsMoveOneWay : Obligations.SampleFunctionsMoveOneWay := by
  refine ⟨fun v n => ⟨?sadd, ?ssub, ?smul, ?sdiv⟩, by decide⟩
  case sadd =>
    have hsum := saddSample_toNat v n
    have hv := v.isLt
    omega
  case ssub =>
    have hdiff := ssubSample_toNat v n
    omega
  case smul =>
    intro hone
    exact le_clampByte_rndDiv v (by norm_num) (mul_le_mul_of_nonneg_left (by exact_mod_cast hone) (by positivity))
  case sdiv =>
    rintro ⟨hpos, hone⟩
    exact le_clampByte_rndDiv v (by exact_mod_cast hpos)
      (mul_le_mul_of_nonneg_left (by exact_mod_cast hone) (by positivity))

end Sys2Proof.Machine
end

section
/-! PROOF. The saturating-arithmetic commands (40_saturating_arithmetic.md R76 to R78, R86): one account of all four, in
place and out of place, and the statements of each from its sample function. -/

namespace Sys2Proof.Machine

/-- `f` of R81 to R84; a command of another family keeps the sample. -/
def sampleFunctionOf : Instr → Byte → Word → Byte
  | .sadd _ => saddSample
  | .ssub _ => ssubSample
  | .smul _ => smulSample
  | .sdiv _ => sdivSample
  | .gamma | .cstr _ | .bplane => fun v _ => v

section
variable {i : Instr} {m : SatMods} {s : State}

theorem outputOffset_inplace (hi : satModsOf i = some m) (hin : m.inplace = true) (a : Nat) :
    OutputOffset i s a ↔ InPlaceOffset s m a := by
  cases i <;> cases hi <;> simp [OutputOffset, hin]

theorem outputOffset_copy (hi : satModsOf i = some m) (hin : m.inplace = false) (a : Nat) :
    OutputOffset i s a ↔ InRange a s.D s.N := by
  cases i <;> cases hi <;> simp [OutputOffset, hin, State.D, State.N, State.H, State.W, State.C]

/-- The byte a saturating-arithmetic command writes, of a sample of channel `channelOf m s a` (R78). -/
theorem outputByte_sat (hi : satModsOf i = some m) (a : Nat) :
    outputByte i s a = satOutput (sampleFunctionOf i) m s (channelOf m s a)
      (s.byte (if m.inplace then a else s.S + (a - s.D))) := by
  cases i <;> cases hi <;> rfl

theorem outputByte_inplace (hi : satModsOf i = some m) (hin : m.inplace = true) (a : Nat) :
    outputByte i s a = satOutput (sampleFunctionOf i) m s m.chsel.toNat (s.byte a) := by
  simp [outputByte_sat hi, channelOf, hin]

theorem outputByte_copy (hi : satModsOf i = some m) (hin : m.inplace = false) (n : Nat) :
    outputByte i s (s.D + n) = satOutput (sampleFunctionOf i) m s (n % s.C) (s.byte (s.S + n)) := by
  simp [outputByte_sat hi, channelOf, hin]

/-- No saturating-arithmetic command writes DEGEN or CSTOBS (R80). -/
theorem commandFlags_sat (hi : satModsOf i = some m) : commandFlags i s = id := by
  cases i <;> cases hi <;> rfl

/-- Buffers, selector and operands in order: no check of R80 fails. -/
theorem rejection_sat (hi : satModsOf i = some m) (hok : s.SatOk m) (hdomain : i = .sdiv m → s.OperandsNonzero m) :
    rejection i s = none := by
  obtain ⟨hlegal, hformat, hselector, hsource, houtput⟩ := hok
  have hwf : i.wellFormed = true := by cases i <;> cases hi <;> exact hlegal
  have hshape : checkShape i s = none := by
    rw [← checkSelector_none] at hselector
    cases i <;> cases hi <;> exact hselector
  have hranges : checkRanges i s = none := by
    refine (checkRanges_none i s).2 ⟨hsource, ?_⟩
    cases i <;> cases hi <;> exact houtput
  have hzero : checkDomain i s = none := by
    cases i <;> cases hi
    case sdiv => exact (checkDomain_sdiv_none m s).2 (hdomain rfl)
    all_goals rfl
  rw [rejection, if_pos hwf, validate_none]
  exact ⟨(checkFormat_none s).2 hformat, hshape, hranges, hzero⟩

/-- A saturating-arithmetic command that no check rejects completes, writes its output range and keeps every other
byte. -/
theorem exec_sat (hi : satModsOf i = some m) (hok : s.SatOk m) (hdomain : i = .sdiv m → s.OperandsNonzero m) :
    ∃ t, exec i s = .next t ∧ CompletedWell s t ∧ (∀ a, OutputOffset i s a → t.byte a = outputByte i s a)
      ∧ ∀ a, ¬ OutputOffset i s a → t.byte a = s.byte a := by
  obtain ⟨r, hexec, hbytes⟩ := exec_outputByte (rejection_sat hi hok hdomain)
  rw [commandFlags_sat hi, id] at hexec
  obtain ⟨-, htop, hdraw, -⟩ := commandsChangeOnlyTheirResults i s _ hexec
  exact ⟨_, hexec, ⟨rfl, htop, hdraw⟩, hbytes, fun a => commandsWriteOnlyTheirOutputRange i s _ a hexec⟩

theorem selected_iff {k : Nat} : selected m k = true ↔ m.chen = false ∨ k = m.chsel.toNat := by
  simp [selected]

theorem satOutput_of_selected {k : Nat} (h : selected m k = true) (f : Byte → Word → Byte) (v : Byte) :
    satOutput f m s k v = f v (operandOf m s k) := if_pos h

theorem satOutput_of_not_selected {k : Nat} (h : ¬ selected m k = true) (f : Byte → Word → Byte) (v : Byte) :
    satOutput f m s k v = v := if_neg h

/-- The operand of R76, as the statements write it. -/
theorem operandOf_eq (m : SatMods) (s : State) (k : Nat) :
    operandOf m s k = if m.perch then s.opnd k else s.opnd0 := by
  unfold operandOf operandIndex
  cases m.perch <;> rfl

/-- A selected channel's operand is among those that R84 asks to be non-zero. -/
theorem operandOf_ne_zero {k : Nat} (h : s.OperandsNonzero m) (hk : k < s.C) (hsel : selected m k = true) :
    operandOf m s k ≠ 0#32 := by
  obtain ⟨hscalar, hselected, hall⟩ := h
  rw [operandOf_eq]
  cases hperch : m.perch
  · exact hscalar hperch
  · cases hchen : m.chen
    · exact hall hperch hchen k hk
    · have hchsel : k = m.chsel.toNat := by simpa [hchen] using selected_iff.1 hsel
      exact hchsel ▸ hselected hperch hchen

/-- In place only the selected channel is written, which exists (R68, R78). -/
theorem selected_of_inplace (hok : s.SatOk m) (hin : m.inplace = true) :
    m.chsel.toNat < s.C ∧ selected m m.chsel.toNat = true := by
  obtain ⟨hlegal, -, hselector, -⟩ := hok
  have hchen : m.chen = true := by
    simpa [SatMods.legal, SatMods.inplaceLegal, hin] using And.right (Bool.and_eq_true_iff.1 hlegal)
  exact ⟨hselector hchen, selected_iff.2 (.inr rfl)⟩

/-- A command whose sample function is `f` on the operands it uses has the effect that R76 to R78 ask of `f`. -/
theorem exec_satEffect {f : Nat → Nat → Int} (hi : satModsOf i = some m) (hok : s.SatOk m)
    (hdomain : i = .sdiv m → s.OperandsNonzero m)
    (hf : ∀ v k, k < s.C → selected m k = true →
      ((sampleFunctionOf i v (operandOf m s k)).toNat : Int) = f v.toNat (operandOf m s k).toNat) :
    ∃ t, exec i s = .next t ∧ SatEffect m f s t := by
  obtain ⟨t, hexec, hwell, hinside, houtside⟩ := exec_sat hi hok hdomain
  refine ⟨t, hexec, hwell, ?_⟩
  simp only [← operandOf_eq]
  cases hin : m.inplace with
  | true =>
    obtain ⟨hchannel, hsel⟩ := selected_of_inplace hok hin
    simp only [outputOffset_inplace hi hin, outputByte_inplace hi hin, satOutput_of_selected hsel] at hinside houtside
    refine ⟨fun n hn hmod => ?_, houtside⟩
    rw [hinside _ ⟨n, hn, hmod, rfl⟩]
    exact hf _ _ hchannel hsel
  | false =>
    simp only [outputOffset_copy hi hin] at hinside houtside
    refine ⟨fun n hn => ?_, houtside⟩
    have hchannel : n % s.C < s.C := by
      obtain ⟨-, ⟨-, -, hC⟩, -⟩ := hok
      exact Nat.mod_lt _ (by unfold State.C; omega)
    change ((t.byte (s.D + n)).toNat : Int) = _
    rw [hinside _ ⟨Nat.le_add_right _ _, Nat.add_lt_add_left hn _⟩, outputByte_copy hi hin]
    split_ifs with hchannels
    · have hsel : selected m (n % s.C) = true := selected_iff.2 hchannels
      rw [satOutput_of_selected hsel]
      exact hf _ _ hchannel hsel
    · have hskip : ¬ selected m (n % s.C) = true := mt selected_iff.1 hchannels
      rw [satOutput_of_not_selected hskip]
      rfl

end

/-! ### The four commands (R81 to R84) -/

/-- Settles O11, by the formula of `saddSample`. -/
theorem saddWritesSaturatedSums : Obligations.SaddWritesSaturatedSums :=
  fun _ _ hok => exec_satEffect rfl hok (fun h => by cases h) fun v _ _ _ => saddSample_toNat v _

/-- Settles O12, by the formula of `ssubSample`. -/
theorem ssubWritesSaturatedDifferences : Obligations.SsubWritesSaturatedDifferences :=
  fun _ _ hok => exec_satEffect rfl hok (fun h => by cases h) fun v _ _ _ => ssubSample_toNat v _

/-- Settles O13, by the formula of `smulSample`. -/
theorem smulWritesRoundedProducts : Obligations.SmulWritesRoundedProducts :=
  fun _ _ hok => exec_satEffect rfl hok (fun h => by cases h) fun v _ _ _ => smulSample_toNat v _

/-- Settles O14: the operand of every channel that is divided is non-zero. -/
theorem sdivWritesRoundedQuotients : Obligations.SdivWritesRoundedQuotients :=
  fun _ _ hok hnonzero => exec_satEffect rfl hok (fun _ => hnonzero) fun v _ hk hsel =>
    sdivSample_toNat v (operandOf_ne_zero hnonzero hk hsel)

/-! ### Channel isolation (R86) -/

/-- Settles O15: in place another channel's offset is outside the output range, out of place its sample is copied. -/
theorem channelSelectorIsolatesChannels : Obligations.ChannelSelectorIsolatesChannels := by
  intro m s i hcommand hok hdomain hchen
  have hi : satModsOf i = some m := by obtain rfl | rfl | rfl | rfl := hcommand <;> rfl
  obtain ⟨t, hexec, -, hinside, houtside⟩ := exec_sat hi hok hdomain
  refine ⟨t, hexec, fun n hn hother => ?_⟩
  cases hin : m.inplace with
  | true =>
    refine houtside _ fun hwritten => hother ?_
    obtain ⟨n', -, hmod, hsame⟩ := (outputOffset_inplace hi hin _).1 hwritten
    rwa [Nat.add_left_cancel hsame]
  | false =>
    have hskip : ¬ selected m (n % s.C) = true := fun hsel =>
      (selected_iff.1 hsel).elim (by simp [hchen]) hother
    have hoffset : OutputOffset i s (s.D + n) :=
      (outputOffset_copy hi hin _).2 ⟨Nat.le_add_right _ _, Nat.add_lt_add_left hn _⟩
    have hbyte := hinside _ hoffset
    rwa [outputByte_copy hi hin, satOutput_of_not_selected hskip] at hbyte

end Sys2Proof.Machine
end

section
/-! PROOF. GAMMA (41_gamma.md): the sample function as the exact curve of R87 over the reals, the command that writes it
(R88, R91), and the laws of R94, each read off the curve. -/

namespace Sys2Proof.Machine

/-! ### The command -/

/-- A command that no check rejects, and that sets no flag of its own, completes, writes its output range and keeps
every other byte. -/
theorem exec_completesWell {i : Instr} {s : State} (hrej : rejection i s = none) (hflags : commandFlags i s = id) :
    ∃ t, exec i s = .next t ∧ CompletedWell s t ∧ (∀ a, OutputOffset i s a → t.byte a = outputByte i s a)
      ∧ ∀ a, ¬ OutputOffset i s a → t.byte a = s.byte a := by
  obtain ⟨r, hexec, hbytes⟩ := exec_outputByte hrej
  rw [hflags, id] at hexec
  obtain ⟨-, htop, hdraw, -⟩ := commandsChangeOnlyTheirResults i s _ hexec
  exact ⟨_, hexec, ⟨rfl, htop, hdraw⟩, hbytes, fun a => commandsWriteOnlyTheirOutputRange i s _ a hexec⟩

/-- Buffers and parameters in order: no check of R92 fails. -/
theorem rejection_gamma {s : State} (hformat : s.FormatOk) (hsource : s.SourceOk) (houtput : s.OutputOk s.N)
    (hgamma : s.gamma ≠ 0#32) (hgainc : s.gainc ≠ 0#32) : rejection .gamma s = none :=
  (validate_none .gamma s).2 ⟨(checkFormat_none s).2 hformat, rfl,
    (checkRanges_none .gamma s).2 ⟨hsource, fun _ => houtput⟩, (checkDomain_gamma_none s).2 ⟨hgamma, hgainc⟩⟩

theorem outputByte_gamma (s : State) (n : Nat) :
    outputByte .gamma s (s.D + n) = gammaSample s.gamma s.gainc (s.byte (s.S + n)) := by
  simp [outputByte, outputSample, sourceOffset, isInplace]

/-! ### Denormalizing: stages 4 and 5 of R87 -/

/-- Saturate at 1, then back to a level of 0 to 255. -/
noncomputable def denormalize (x : ℝ) : Int := rnd (255 * min 1 x)

theorem denormalize_mono {x y : ℝ} (h : x ≤ y) : denormalize x ≤ denormalize y :=
  rnd_mono (by gcongr)

theorem normalized_le_one (v : Byte) : (v.toNat : ℝ) / 255 ≤ 1 :=
  (div_le_one (by norm_num)).2 (by exact_mod_cast Nat.le_of_lt_succ v.isLt)

/-- A normalized sample denormalizes to itself (R94 (a)). -/
theorem denormalize_byte (v : Byte) : denormalize ((v.toNat : ℝ) / 255) = v.toNat := by
  rw [denormalize, min_eq_right (normalized_le_one v), mul_div_cancel₀ _ (by norm_num), ← Int.cast_natCast,
    rnd_intCast]

/-- Level `n` is reached when the normalized value is at least half a level below it. -/
theorem le_denormalize_iff {x : ℝ} (hx : 0 ≤ x) {n : Nat} (hn : n ≤ 255) :
    (n : Int) ≤ denormalize x ↔ (2 * (n : ℝ) - 1) / 510 ≤ x := by
  have hn' : (n : ℝ) ≤ 255 := by exact_mod_cast hn
  have hone : (2 * (n : ℝ) - 1) / 510 ≤ 1 := by linarith
  calc (n : Int) ≤ denormalize x
      ↔ (n : ℝ) ≤ 255 * min 1 x + 1 / 2 := by
        rw [denormalize, rnd_of_nonneg (by positivity), Int.le_floor, Int.cast_natCast]
    _ ↔ (2 * (n : ℝ) - 1) / 510 ≤ min 1 x := by constructor <;> intro h <;> linarith
    _ ↔ (2 * (n : ℝ) - 1) / 510 ≤ x := by rw [le_min_iff, and_iff_right hone]

theorem denormalize_nonneg {x : ℝ} (hx : 0 ≤ x) : 0 ≤ denormalize x := by
  simpa using (le_denormalize_iff hx (Nat.zero_le 255)).2 (by linarith)

theorem denormalize_le (x : ℝ) : denormalize x ≤ 255 := by
  have hsaturated : 255 * min 1 x ≤ ((255 : Int) : ℝ) := by
    have hmin := min_le_left 1 x
    push_cast
    linarith
  exact (rnd_mono hsaturated).trans_eq (rnd_intCast 255)

/-! ### The curve: stages 1 to 3 of R87 -/

/-- `c * (v / 255)^γ` with `γ = g / 65536` and `c = k / 65536`. -/
noncomputable def gammaCurve (g k : Word) (v : Byte) : ℝ :=
  (k.toNat : ℝ) / 65536 * ((v.toNat : ℝ) / 255) ^ ((g.toNat : ℝ) / 65536)

theorem gammaCurve_nonneg (g k : Word) (v : Byte) : 0 ≤ gammaCurve g k v := by
  unfold gammaCurve
  positivity

/-- The table of R88 holds the exact value: the search over integers and the real formula reach the same levels. -/
theorem gammaSample_toNat (g k : Word) (v : Byte) :
    ((gammaSample g k v).toNat : Int) = denormalize (gammaCurve g k v) := by
  have hcurve := gammaCurve_nonneg g k v
  have hlevels : ∀ n : Nat, 1 ≤ n → n ≤ 255 →
      (n ≤ (gammaSample g k v).toNat ↔ (n : Int) ≤ denormalize (gammaCurve g k v)) := fun n hn hn' => by
    rw [← gammaReaches_iff g k v hn hn', gammaReaches_iff_real _ _ _ _ hn, le_denormalize_iff hcurve hn', gammaCurve]
  have hsample := (gammaSample g k v).isLt
  obtain ⟨d, hd⟩ := Int.eq_ofNat_of_zero_le (denormalize_nonneg hcurve)
  have hd' := denormalize_le (gammaCurve g k v)
  have hlevel := hlevels d
  have hlevel' := hlevels (gammaSample g k v).toNat
  omega

/-! ### Through the command -/

/-- Settles O18: the command writes the table's entry for each sample, which is the exact value. -/
theorem gammaWritesTheExactPowerLaw : Obligations.GammaWritesTheExactPowerLaw := by
  intro s hformat hsource houtput hgamma hgainc
  obtain ⟨t, hexec, hwell, hinside, houtside⟩ :=
    exec_completesWell (rejection_gamma hformat hsource houtput hgamma hgainc) rfl
  refine ⟨t, hexec, hwell, fun n hn => ?_, houtside⟩
  have hoffset : OutputOffset .gamma s (s.D + n) := ⟨Nat.le_add_right _ _, Nat.add_lt_add_left hn _⟩
  have hbyte : t.byte (s.dst.toNat + n) = gammaSample s.gamma s.gainc (s.byte (s.src.toNat + n)) :=
    (hinside _ hoffset).trans (outputByte_gamma s n)
  rw [hbyte, gammaSample_toNat, denormalize, gammaCurve]

/-! ### The laws (R94) -/

/-- `γ > 0` for a legal parameter. -/
theorem gammaExponent_pos {g : Word} (hg : g ≠ 0#32) : 0 < (g.toNat : ℝ) / 65536 := by
  have hpos : (0 : ℝ) < g.toNat := by exact_mod_cast word_toNat_pos hg
  positivity

theorem gammaCurve_one_one (v : Byte) : gammaCurve 0x00010000#32 0x00010000#32 v = (v.toNat : ℝ) / 255 := by
  norm_num [gammaCurve]

theorem gammaCurve_black {g : Word} (hg : g ≠ 0#32) (k : Word) : gammaCurve g k 0#8 = ((0#8).toNat : ℝ) / 255 := by
  simp [gammaCurve, Real.zero_rpow (gammaExponent_pos hg).ne']

theorem gammaCurve_white (g : Word) : gammaCurve g 0x00010000#32 255#8 = ((255#8).toNat : ℝ) / 255 := by
  norm_num [gammaCurve]

/-- Where the curve passes through a level, the sample takes it. -/
theorem gammaSample_eq_of_curve {g k : Word} {v w : Byte} (h : gammaCurve g k v = (w.toNat : ℝ) / 255) :
    gammaSample g k v = w := by
  have hlevel := gammaSample_toNat g k v
  rw [h, denormalize_byte] at hlevel
  exact BitVec.eq_of_toNat_eq (Int.ofNat.inj hlevel)

theorem gammaSample_one_one (v : Byte) : gammaSample 0x00010000#32 0x00010000#32 v = v :=
  gammaSample_eq_of_curve (gammaCurve_one_one v)

/-- Settles O19: the curve of `γ = c = 1` is the identity, every curve starts at 0, and one with `c = 1` ends at 1. -/
theorem gammaFixedPoints : Obligations.GammaFixedPoints := by
  refine ⟨gammaSample_one_one, fun g k hg _ => ?black, fun g _ => ?white⟩
  case black => exact gammaSample_eq_of_curve (gammaCurve_black hg k)
  case white => exact gammaSample_eq_of_curve (gammaCurve_white g)

/-- The order of two points of two curves is the order of their levels. -/
theorem gammaSample_le_of_curve {g k g' k' : Word} {v v' : Byte} (h : gammaCurve g k v ≤ gammaCurve g' k' v') :
    (gammaSample g k v).toNat ≤ (gammaSample g' k' v').toNat := by
  have hlevel := denormalize_mono h
  rw [← gammaSample_toNat, ← gammaSample_toNat] at hlevel
  exact Int.ofNat_le.1 hlevel

theorem gammaCurve_mono (g k : Word) {v v' : Byte} (h : v.toNat ≤ v'.toNat) :
    gammaCurve g k v ≤ gammaCurve g k v' := by
  unfold gammaCurve
  gcongr

/-- Settles O20: each curve rises with the sample. -/
theorem gammaIsMonotone : Obligations.GammaIsMonotone :=
  fun g k _ _ _ _ h => gammaSample_le_of_curve (gammaCurve_mono g k h)

/-- The curve rises with the gain and, since a normalized sample is at most 1, falls with the exponent. -/
theorem gammaCurve_le {g g' k k' : Word} (v : Byte) (hg : g'.toNat ≤ g.toNat) (hk : k.toNat ≤ k'.toNat) :
    gammaCurve g k v ≤ gammaCurve g' k' v := by
  have hexponent : (g'.toNat : ℝ) / 65536 ≤ (g.toNat : ℝ) / 65536 := by gcongr
  have hpower := Real.rpow_le_rpow_of_exponent_ge' (by positivity) (normalized_le_one v) (by positivity) hexponent
  unfold gammaCurve
  gcongr

/-- Settles O21, by comparison with the curve of `γ = c = 1`, which is the identity. -/
theorem gammaBrightensOrDarkens : Obligations.GammaBrightensOrDarkens := by
  intro g k v _ _
  refine ⟨fun hbelow hgain => ?brightens, fun habove hgain => ?darkens⟩
  case brightens =>
    calc v.toNat = (gammaSample 0x00010000#32 0x00010000#32 v).toNat := by rw [gammaSample_one_one]
      _ ≤ (gammaSample g k v).toNat := gammaSample_le_of_curve (gammaCurve_le v hbelow.le hgain)
  case darkens =>
    calc (gammaSample g k v).toNat
        ≤ (gammaSample 0x00010000#32 0x00010000#32 v).toNat :=
          gammaSample_le_of_curve (gammaCurve_le v habove.le hgain)
      _ = v.toNat := by rw [gammaSample_one_one]

end Sys2Proof.Machine
end

section
/-! PROOF. CSTR (42_contrast_stretch.md): the sample function as the formula of R96 over the rationals, its laws (R100),
and the command in either mode (R95, R97 to R99). -/

namespace Sys2Proof.Machine

/-! ### The sample function (R96) -/

section
variable {outMin outMax rmin rmax r : Int}

theorem stretchSample_toNat (h : rmin ≠ rmax) :
    ((stretchSample outMin outMax rmin rmax r).toNat : Int) = stretchValue outMin outMax rmin rmax r := by
  have hrange : rmax - rmin ≠ 0 := sub_ne_zero.2 h.symm
  have hrange' : (rmax : ℚ) - rmin ≠ 0 := by exact_mod_cast hrange
  have hquotient : (((outMax - outMin) * (r - rmin) + outMin * (rmax - rmin) : Int) : ℚ) / ((rmax - rmin : Int) : ℚ)
      = (outMax - outMin) / (rmax - rmin) * (r - rmin) + outMin := by
    push_cast
    field_simp
  rw [stretchSample, clampByte_toNat, rndDiv_eq_rnd (K := ℚ) _ _ hrange, hquotient, stretchValue]

/-- Where the line of R96 goes through an integer, nothing is rounded. -/
theorem stretchSample_of_exact {n : Int} (h : rmin ≠ rmax)
    (hexact : (outMax - outMin) * (r - rmin) + outMin * (rmax - rmin) = n * (rmax - rmin)) :
    stretchSample outMin outMax rmin rmax r = clampByte n := by
  rw [stretchSample, hexact, rndDiv_mul_self n (sub_ne_zero.2 h.symm)]

/-- Over ordered bounds the map follows the slope of its line. -/
theorem stretchSample_le_of_slope {r' : Int} (h : rmin < rmax)
    (hslope : (outMax - outMin) * (r - rmin) ≤ (outMax - outMin) * (r' - rmin)) :
    (stretchSample outMin outMax rmin rmax r).toNat ≤ (stretchSample outMin outMax rmin rmax r').toNat :=
  clampByte_mono (rndDiv_mono (sub_pos.2 h) (Int.add_le_add_right hslope _))

end

/-! ### The laws (R100) -/

/-- Settles O25: at either bound, and all along the full-range inversion, the line goes through integers. -/
theorem stretchEndpointsAreExact : Obligations.StretchEndpointsAreExact := by
  refine ⟨fun outMin outMax rmin rmax hne => ⟨?lower, ?upper⟩, fun r => ?inversion⟩
  case lower =>
    rw [stretchSample_of_exact (n := outMin.toNat) (by exact_mod_cast BitVec.toNat_ne_iff_ne.2 hne) (by ring), clampByte_byte]
  case upper =>
    rw [stretchSample_of_exact (n := outMax.toNat) (by exact_mod_cast BitVec.toNat_ne_iff_ne.2 hne) (by ring), clampByte_byte]
  case inversion =>
    have hr := r.isLt
    have hvalue := clampByte_of_range (x := 255 - r.toNat) (by omega) (by omega)
    rw [stretchSample_of_exact (n := 255 - r.toNat) (by norm_num) (by ring)]
    omega

/-- Settles O26: the slope has the sign of OUTMAX - OUTMIN. -/
theorem stretchKeepsOrInvertsOrder : Obligations.StretchKeepsOrInvertsOrder := by
  intro outMin outMax rmin rmax r r' hbounds hr
  have hbounds' : (rmin.toNat : Int) < rmax.toNat := by exact_mod_cast hbounds
  have hsample : (r.toNat : Int) - rmin.toNat ≤ r'.toNat - rmin.toNat := by omega
  exact ⟨fun hrising => stretchSample_le_of_slope hbounds' (mul_le_mul_of_nonneg_left hsample (by omega)),
    fun hfalling => stretchSample_le_of_slope hbounds' (mul_le_mul_of_nonpos_left hsample (by omega))⟩

/-! ### The bounds (R95) -/

theorem observed_unique {s : State} {lo hi lo' hi' : Byte} (h : s.Observed lo hi) (h' : s.Observed lo' hi') :
    lo = lo' ∧ hi = hi' := by
  obtain ⟨⟨i, hi1, rfl⟩, ⟨j, hj1, rfl⟩, hall⟩ := h
  obtain ⟨⟨i', hi1', rfl⟩, ⟨j', hj1', rfl⟩, hall'⟩ := h'
  exact ⟨BitVec.eq_of_toNat_eq (le_antisymm (hall i' hi1').1 (hall' i hi1).1),
    BitVec.eq_of_toNat_eq (le_antisymm (hall' j hj1).2 (hall j' hj1').2)⟩

theorem stretchBounds_observed {s : State} {lo hi : Byte} (hformat : s.FormatOk) (hsource : s.SourceOk)
    (h : s.Observed lo hi) : stretchBounds false s = some (lo.toNat, hi.toNat) := by
  obtain ⟨b, hb, -, hfound⟩ := stretchBounds_spec false s hformat hsource
  obtain ⟨lo', hi', rfl, hobserved⟩ := hfound rfl
  obtain ⟨rfl, rfl⟩ := observed_unique h hobserved
  exact hb

theorem stretchBounds_explicit (s : State) : stretchBounds true s = some (s.srcMin.toNat, s.srcMax.toNat) := rfl

/-! ### The flags (R97, R98) -/

theorem stretchFlags_observed {lo hi : Byte} (h : lo ≠ hi) (s : State) :
    stretchFlags false (lo.toNat, hi.toNat) s = { s with obsMin := lo, obsMax := hi, obsValid := true } := by
  simp [stretchFlags, BitVec.toNat_ne_iff_ne.2 h]

theorem stretchFlags_explicit {b : Nat × Nat} (h : b.1 ≠ b.2) (s : State) : stretchFlags true b s = s := by
  simp [stretchFlags, beq_eq_false_iff_ne.2 h]

theorem stretchFlags_degenerate (expl : Bool) (r : Byte) (s : State) :
    stretchFlags expl (r.toNat, r.toNat) s =
      { s with degen := true, obsMin := if expl then s.obsMin else r, obsMax := if expl then s.obsMax else r,
               obsValid := if expl then s.obsValid else true } := by
  cases expl <;> simp [stretchFlags]

/-! ### The command (R99) -/

theorem rejection_cstr {s : State} (expl : Bool) (hformat : s.FormatOk) (hsource : s.SourceOk)
    (houtput : s.OutputOk s.N) : rejection (.cstr expl) s = none :=
  (validate_none (.cstr expl) s).2 ⟨(checkFormat_none s).2 hformat, rfl,
    (checkRanges_none (.cstr expl) s).2 ⟨hsource, fun _ => houtput⟩, rfl⟩

theorem boundsOf_eq {expl : Bool} {s : State} {b : Nat × Nat} (h : stretchBounds expl s = some b) :
    boundsOf expl s = b := by rw [boundsOf, h]; rfl

theorem commandFlags_cstr {expl : Bool} {s : State} {b : Nat × Nat} (h : stretchBounds expl s = some b) :
    commandFlags (.cstr expl) s = stretchFlags expl b := by rw [commandFlags, boundsOf_eq h]

theorem outputByte_cstr {expl : Bool} {s : State} {b : Nat × Nat} (h : stretchBounds expl s = some b) (n : Nat) :
    outputByte (.cstr expl) s (s.D + n) = stretchOutput b s (s.byte (s.S + n)) := by
  simp [outputByte, outputSample, sourceOffset, isInplace, boundsOf_eq h]

/-- CSTR with its buffers in order and bounds `b` completes with the flags of `b`, maps every sample between them and
keeps every other byte. -/
theorem exec_cstr {expl : Bool} {s : State} {b : Nat × Nat} (hformat : s.FormatOk) (hsource : s.SourceOk)
    (houtput : s.OutputOk s.N) (hbounds : stretchBounds expl s = some b) :
    ∃ t, exec (.cstr expl) s = .next t ∧ t = complete none (stretchFlags expl b { s with ram := t.ram })
      ∧ t.ram.topWord = s.ram.topWord ∧ t.ram.draw = s.ram.draw
      ∧ (∀ n, n < s.N → t.byte (s.dst.toNat + n) = stretchOutput b s (s.byte (s.src.toNat + n)))
      ∧ ∀ a, ¬ InRange a s.dst.toNat s.N → t.byte a = s.byte a := by
  obtain ⟨r, hexec, hbytes⟩ := exec_outputByte (rejection_cstr expl hformat hsource houtput)
  rw [commandFlags_cstr hbounds] at hexec
  obtain ⟨-, htop, hdraw, -⟩ := commandsChangeOnlyTheirResults _ s _ hexec
  refine ⟨_, hexec, rfl, htop, hdraw, fun n hn => ?_, fun a => commandsWriteOnlyTheirOutputRange _ s _ a hexec⟩
  have hoffset : OutputOffset (.cstr expl) s (s.D + n) := ⟨Nat.le_add_right _ _, Nat.add_lt_add_left hn _⟩
  exact (hbytes _ hoffset).trans (outputByte_cstr hbounds n)

/-- Between two bounds that differ a sample takes the value of R96. -/
theorem stretchOutput_toNat {b : Nat × Nat} (h : b.1 ≠ b.2) (s : State) (v : Byte) :
    ((stretchOutput b s v).toNat : Int) = stretchValue s.outMin.toNat s.outMax.toNat b.1 b.2 v.toNat := by
  rw [stretchOutput, if_neg h, stretchSample_toNat (by exact_mod_cast h)]
  simp only [Int.cast_natCast]

theorem stretchOutput_degenerate (n : Nat) (s : State) (v : Byte) : stretchOutput (n, n) s v = s.outMin := if_pos rfl

/-- Settles O22: the bounds found are the observed ones. -/
theorem observedStretchMapsEverySample : Obligations.ObservedStretchMapsEverySample := by
  intro s rmin rmax hformat hsource houtput hobserved hne
  obtain ⟨t, hexec, ht, htop, hdraw, hinside, houtside⟩ :=
    exec_cstr hformat hsource houtput (stretchBounds_observed hformat hsource hobserved)
  rw [stretchFlags_observed hne] at ht
  exact ⟨t, hexec, ht, htop, hdraw,
    fun n hn => by rw [hinside n hn, stretchOutput_toNat (BitVec.toNat_ne_iff_ne.2 hne)], houtside⟩

/-- Settles O23: the bounds are SRCMIN and SRCMAX as they stand, in either order. -/
theorem explicitStretchMapsEverySample : Obligations.ExplicitStretchMapsEverySample := by
  intro s hformat hsource houtput hne
  obtain ⟨t, hexec, ht, htop, hdraw, hinside, houtside⟩ :=
    exec_cstr hformat hsource houtput (stretchBounds_explicit s)
  rw [stretchFlags_explicit (BitVec.toNat_ne_iff_ne.2 hne)] at ht
  exact ⟨t, hexec, ⟨ht, htop, hdraw⟩,
    fun n hn => by rw [hinside n hn, stretchOutput_toNat (BitVec.toNat_ne_iff_ne.2 hne)], houtside⟩

/-- Settles O24: in either mode both bounds are one value, and the bytes written are the fill. -/
theorem degenerateStretchFillsWithOutMin : Obligations.DegenerateStretchFillsWithOutMin := by
  intro s expl r hformat hsource houtput hobserved hexplicit
  obtain ⟨v, hbounds, hv⟩ : ∃ v : Byte, stretchBounds expl s = some (v.toNat, v.toNat) ∧ (expl = false → v = r) := by
    cases expl with
    | false => exact ⟨r, stretchBounds_observed hformat hsource (hobserved rfl), fun _ => rfl⟩
    | true => exact ⟨s.srcMin, by rw [stretchBounds_explicit, ← hexplicit rfl], nofun⟩
  obtain ⟨t, hexec, ht, htop, hdraw, hinside, houtside⟩ := exec_cstr hformat hsource houtput hbounds
  rw [stretchFlags_degenerate] at ht
  refine ⟨t, hexec, ?_, htop, hdraw, fun n hn => (hinside n hn).trans (stretchOutput_degenerate _ _ _), houtside⟩
  cases expl with
  | false => exact hv rfl ▸ ht
  | true => exact ht

end Sys2Proof.Machine
end

section
/-! PROOF. BPLANE (43_bit_plane.md): the place of each plane byte, the command that writes the planes (R101 to R103),
and the source read back from them as binary digits (R104). -/

namespace Sys2Proof.Machine

/-! ### The command (R102, R103) -/

theorem rejection_bplane {s : State} (hformat : s.FormatOk) (hchannels : s.channels = 1#4) (hsource : s.SourceOk)
    (houtput : s.OutputOk (8 * (s.H * s.W))) : rejection .bplane s = none := by
  have hC : s.C = 1 := congrArg BitVec.toNat hchannels
  have hshape : checkShape .bplane s = none := if_neg (not_not.2 hC)
  exact (validate_none .bplane s).2 ⟨(checkFormat_none s).2 hformat, hshape,
    (checkRanges_none .bplane s).2 ⟨hsource, fun _ => houtput⟩, rfl⟩

/-- Sample `i` of plane `k`: the offset's quotient by the plane size is the plane, its remainder the sample. -/
theorem outputByte_bplane (s : State) (k : Nat) {i : Nat} (hi : i < s.H * s.W) :
    outputByte .bplane s (s.D + (k * (s.H * s.W) + i)) = planeSample k (s.byte (s.S + i)) := by
  simp only [outputByte, outputSample, sourceOffset, Nat.add_sub_cancel_left, mul_add_div_of_lt k hi,
    Nat.mul_add_mod_of_lt hi]

/-- Settles O27: each offset of the planes takes the bit of its own plane and sample. -/
theorem bplaneWritesEightPlanes : Obligations.BplaneWritesEightPlanes := by
  intro s hformat hchannels hsource houtput
  obtain ⟨t, hexec, hwell, hinside, houtside⟩ :=
    exec_completesWell (rejection_bplane hformat hchannels hsource houtput) rfl
  refine ⟨t, hexec, hwell, fun k i hk hi => ?_, houtside⟩
  have hoffset : OutputOffset .bplane s (s.D + (k * (s.H * s.W) + i)) :=
    ⟨Nat.le_add_right _ _, Nat.add_lt_add_left (planeOffset_lt hk hi) _⟩
  have hbyte : t.byte (s.dst.toNat + (k * (s.height.toNat * s.width.toNat) + i))
      = planeSample k (s.byte (s.src.toNat + i)) := (hinside _ hoffset).trans (outputByte_bplane s k hi)
  rw [Nat.add_assoc, hbyte, planeSample_toNat]

/-! ### The source from its planes (R104) -/

/-- The binary digits of `v` below place `n`, each with its weight, add up to `v` modulo `2 ^ n`. -/
theorem sum_binaryDigits (v n : Nat) : ((List.range n).map fun k => v / 2 ^ k % 2 * 2 ^ k).sum = v % 2 ^ n := by
  induction n with
  | zero => rw [pow_zero, Nat.mod_one]; rfl
  | succ n ih => rw [List.range_succ, List.map_append, List.sum_append, ih, List.map_singleton, List.sum_singleton,
      Nat.mod_pow_succ, Nat.mul_comm (2 ^ n)]

/-- Settles O28: each plane byte, over 255, is one binary digit of its sample, and a sample has eight. -/
theorem bitPlanesReconstructTheSource : Obligations.BitPlanesReconstructTheSource := by
  intro s hformat hchannels hsource houtput
  obtain ⟨t, hexec, -, hplanes, -⟩ := bplaneWritesEightPlanes s hformat hchannels hsource houtput
  refine ⟨t, hexec, fun i hi => ?_⟩
  have hdigit : ∀ k ∈ List.range 8,
      (t.byte (s.dst.toNat + k * (s.height.toNat * s.width.toNat) + i)).toNat / 255 * 2 ^ k
        = (s.byte (s.src.toNat + i)).toNat / 2 ^ k % 2 * 2 ^ k := fun k hk => by
    rw [hplanes k i (List.mem_range.1 hk) hi, Nat.mul_div_cancel _ (by decide)]
  rw [List.map_congr_left hdigit, sum_binaryDigits, Nat.mod_eq_of_lt (s.byte (s.src.toNat + i)).isLt]

end Sys2Proof.Machine
end

section
/-! PROOF. The code a command ends with (60_exceptions.md R106 to R111): each check of R109 as one case distinction on
the spec's own predicate, the order of R110 from them, and what a failed command leaves as it was. -/

namespace Sys2Proof.Machine

/-! ### Each check by the predicate of R109 -/

/-- Legality as R68 states it: CHSEL and INPLACE ask for CHEN. -/
theorem failsLegality_iff (i : Instr) : FailsLegality i ↔ i.wellFormed = false := by
  cases i with
  | sadd m | ssub m | smul m | sdiv m =>
    cases hchen : m.chen <;>
      simp [FailsLegality, satModsOf, Instr.wellFormed, SatMods.legal, SatMods.selectorLegal, SatMods.inplaceLegal,
        hchen, imp_iff_not_or]
  | gamma | cstr | bplane => simp [FailsLegality, satModsOf, Instr.wellFormed]

theorem isInplace_iff (i : Instr) : isInplace i = true ↔ ∃ m, satModsOf i = some m ∧ m.inplace = true := by
  cases i <;> simp [isInplace, satModsOf]

theorem outputCount_eq (i : Instr) (s : State) :
    outputCount i s = if i = .bplane then 8 * s.height.toNat * s.width.toNat
      else s.height.toNat * s.width.toNat * s.channels.toNat := by
  cases i with
  | bplane => exact (Nat.mul_assoc ..).symm
  | sadd | ssub | smul | sdiv | gamma | cstr => rfl

theorem checkFormat_eq (s : State) : checkFormat s = if ¬ s.FormatOk then some .invalidInput else none := by
  refine if_congr ?_ rfl rfl
  simp only [State.FormatOk, State.W, State.H, State.C]
  omega

open Classical in
theorem checkShape_eq (i : Instr) (s : State) : checkShape i s = if FailsShape i s then some .shape else none := by
  cases i with
  | sadd m | ssub m | smul m | sdiv m | bplane =>
    exact if_congr (by simp [FailsShape, satModsOf, State.C]) rfl rfl
  | gamma | cstr => exact (if_neg (by simp [FailsShape, satModsOf])).symm

open Classical in
theorem checkRanges_eq (i : Instr) (s : State) :
    checkRanges i s = if FailsRanges i s then some .invalidInput else none := by
  have hfails : FailsRanges i s ↔ s.sramBytes < s.S + s.N ∨ (¬ isInplace i = true
      ∧ (s.sramBytes < s.D + outputCount i s ∨ (s.S < s.D + outputCount i s ∧ s.D < s.S + s.N))) := by
    rw [isInplace_iff, outputCount_eq]
    rfl
  rw [if_congr hfails rfl rfl]
  unfold checkRanges
  cases isInplace i with
  | true => simp
  | false => simp [ite_or]

open Classical in
theorem checkDomain_eq (i : Instr) (s : State) : checkDomain i s = if FailsDomain i s then some .domain else none := by
  cases i with
  | sdiv m =>
    refine if_congr ?_ rfl rfl
    rw [← Bool.not_eq_false, opnd_any_zero]
    simp [FailsDomain]
  | gamma => exact if_congr (by simp [FailsDomain]) rfl rfl
  | sadd | ssub | smul | cstr | bplane => exact (if_neg (by simp [FailsDomain])).symm

/-! ### The first check that fails (R110) -/

theorem ite_some_or {α : Type} (p : Prop) [Decidable p] (a : α) (o : Option α) :
    (if p then some a else none).or o = if p then some a else o := by
  split <;> rfl

open Classical in
/-- The code a command is rejected with, in the order of R110. -/
theorem rejection_eq (i : Instr) (s : State) :
    rejection i s =
      if FailsLegality i then some .illegalCmd
      else if ¬ s.FormatOk then some .invalidInput
      else if FailsShape i s then some .shape
      else if FailsRanges i s then some .invalidInput
      else if FailsDomain i s then some .domain
      else none := by
  rw [rejection, validate, Option.or_assoc, checkFormat_eq, checkShape_eq, checkRanges_eq, checkDomain_eq]
  simp only [ite_some_or, failsLegality_iff]
  cases i.wellFormed <;> rfl

/-- STATUS.ERR after a command is the code it was rejected with, 0 if it was not. -/
theorem exec_err {i : Instr} {s t : State} (h : exec i s = .next t) : t.err = errBits (rejection i s) := by
  cases hrej : rejection i s with
  | some e =>
    cases (exec_of_rejected hrej).symm.trans h
    rfl
  | none =>
    obtain ⟨r, -, he⟩ := exec_of_not_rejected hrej
    cases he.symm.trans h
    rfl

/-- Settles O29: the code is that of `rejection`, whose cases are those of R110. -/
theorem firstFailingCheckIsReported : Obligations.FirstFailingCheckIsReported := by
  intro i s
  obtain ⟨t, hexec, hidle, hdone⟩ := exec_completes i s
  refine ⟨t, hexec, hidle, hdone, ?_⟩
  rw [exec_err hexec, rejection_eq]
  refine ⟨fun hlegality => ?_, fun hlegal hformat => ?_, fun hlegal hformat hshape => ?_,
    fun hlegal hformat hshape hranges => ?_, fun hlegal hformat hshape hranges hdomain => ?_,
    fun hlegal hformat hshape hranges hdomain => ?_⟩
  · rw [if_pos hlegality, errBits]
  · rw [if_neg hlegal, if_pos hformat, errBits]
  · rw [if_neg hlegal, if_neg (not_not.2 hformat), if_pos hshape, errBits]
  · rw [if_neg hlegal, if_neg (not_not.2 hformat), if_neg hshape, if_pos hranges, errBits]
  · rw [if_neg hlegal, if_neg (not_not.2 hformat), if_neg hshape, if_neg hranges, if_pos hdomain, errBits]
  · rw [if_neg hlegal, if_neg (not_not.2 hformat), if_neg hshape, if_neg hranges, if_neg hdomain, errBits]

/-! ### A failed command (R106, R111) -/

/-- Settles O30: a code other than 0 comes from a rejection, which is a completion alone. -/
theorem failedCommandHasNoOtherEffect : Obligations.FailedCommandHasNoOtherEffect := by
  intro i s t hexec herr
  rw [exec_err hexec] at herr
  cases hrej : rejection i s with
  | some e =>
    cases (exec_of_rejected hrej).symm.trans hexec
    rfl
  | none => exact (herr (by rw [hrej]; rfl)).elim

/-- Settles O35: validation passes only commands whose accesses stay inside sample RAM. -/
theorem everyCommandCompletes : Obligations.EveryCommandCompletes := exec_completes

end Sys2Proof.Machine
end

section
/-! PROOF. The interrupt output (60_exceptions.md R114): as the host reads it, and each way it goes low. -/

namespace Sys2Proof.Machine

theorem irq_of_not_done {s : State} (h : s.done = false) : irq s = false := by rw [irq, h, Bool.false_and]

theorem irq_of_disabled {s : State} (h : s.ie = false) : irq s = false := by rw [irq, h, Bool.and_false]

theorem statusWord_done (s : State) : (statusWord s).getLsbD 1 = s.done := by
  have hbusy := s.busy.toNat_lt
  have hdone := s.done.toNat_lt
  rw [getLsbD_eq_iff, statusWord_toNat]
  omega

theorem regRead_ctrl_ie (s : State) : (regRead .ctrl s).getLsbD 0 = s.ie := by
  have hie := s.ie.toNat_lt
  rw [getLsbD_eq_iff, regRead_ctrl_toNat]
  omega

/-- Settles O50: writing 1 to DONE, acceptance and the resets clear DONE, a CTRL write without SRST masks it. -/
theorem interruptFollowsDoneAndEnable : Obligations.InterruptFollowsDoneAndEnable := by
  intro s
  refine ⟨?asRead, fun w hw => ?acknowledged, fun w hidle => ?accepted, fun w hw => ?control,
    fun rest h => ?powerOn⟩
  case asRead =>
    refine ⟨statusWord s, regRead .ctrl s, readWord_regOffset .status s, readWord_regOffset .ctrl s, ?_⟩
    rw [statusWord_done, regRead_ctrl_ie, irq]
  case acknowledged =>
    rw [writeWord, statusIsWriteOneToClear s w]
    exact irq_of_not_done (if_pos hw)
  case accepted =>
    rw [writeWord, (acceptanceStoresTheWordAndSetsBusy s w).1 hidle]
    exact irq_of_not_done rfl
  case control =>
    rw [writeWord_ctrl]
    cases hsrst : w.getLsbD 1 with
    | true => exact irq_of_not_done (by rw [writeCtrl_of_srst hsrst, softReset_done])
    | false =>
      rw [writeCtrl_of_not_srst hsrst]
      exact irq_of_disabled (hw.resolve_right (by rw [hsrst]; exact Bool.false_ne_true))
  case powerOn => exact ⟨_, step_eq_of_powerOn h, irq_of_not_done rfl⟩

end Sys2Proof.Machine
end

section
/-! PROOF. The two resets (70_reset_and_hazards.md R125 to R128): the registers after them, and what they leave in sample
RAM. -/

namespace Sys2Proof.Machine

/-! ### The registers -/

/-- Every register field of `t` holds its reset value (10_state.md R20). -/
abbrev AtReset (t : State) : Prop :=
  t = { State.reset with ram := t.ram, draws := t.draws, agenda := t.agenda, responses := t.responses }

theorem softReset_atReset (c : Option Instr) (s : State) : AtReset (softReset c s) := rfl

theorem powerOnReset_atReset (s : State) : AtReset (powerOnReset s) := rfl

/-- The registers that 10_state.md R20 resets to 0. -/
def clearedRegs : List Reg :=
  [.ctrl, .status, .cmd, .src, .dst, .dims, .fmt, .opnd0, .opnd1, .opnd2, .gamma, .cstout, .cstsrc, .cstobs]

/-- Every register but SRAMSZ reads what it reads after power-on. -/
theorem regRead_atReset {r : Reg} {t : State} (hr : r ≠ .sramsz) (h : AtReset t) :
    regRead r t = regRead r State.reset := by
  rw [h]
  cases r with
  | sramsz => exact (hr rfl).elim
  | id | ctrl | status | cmd | src | dst | dims | fmt | opnd0 | opnd1 | opnd2 | gamma | gainc | cstout | cstsrc
    | cstobs => rfl

theorem regRead_reset_cleared : ∀ r ∈ clearedRegs, r ≠ .sramsz ∧ regRead r State.reset = 0#32 := by decide

theorem readsAs_cleared {r : Reg} {t : State} (hr : r ∈ clearedRegs) (h : AtReset t) :
    ReadsAs (regOffset r) 0#32 t := by
  obtain ⟨hne, hzero⟩ := regRead_reset_cleared r hr
  rw [← hzero, ← regRead_atReset hne h]
  exact readWord_regOffset r t

/-- SRAMSZ reads the size of sample RAM, which no reset changes (70_reset_and_hazards.md R126). -/
theorem regRead_sramsz_congr {s t : State} (h : t.ram.topWord = s.ram.topWord) :
    regRead .sramsz t = regRead .sramsz s := by
  simp only [regRead, State.sramBytes, bytes_eq_of_topWord h]

/-- A state with the fields at their reset values, as the host reads it. -/
theorem registersReset_of_atReset {s t : State} (h : AtReset t) (htop : t.ram.topWord = s.ram.topWord) :
    RegistersReset s t := by
  have hgainc : regRead .gainc t = 0x00010000#32 := regRead_atReset (by decide) h
  refine ⟨readWord_regOffset .id t, ?size, fun n hn => ?cleared, hgainc ▸ readWord_regOffset .gainc t, ?idle, ?low⟩
  case size =>
    exact ⟨regRead .sramsz s, readWord_regOffset .sramsz s, regRead_sramsz_congr htop ▸ readWord_regOffset .sramsz t⟩
  case cleared =>
    have hoffsets : n ∈ clearedRegs.map regOffset := hn
    obtain ⟨r, hr, rfl⟩ := List.mem_map.1 hoffsets
    exact readsAs_cleared hr h
  case idle => rw [h]; rfl
  case low => exact irq_of_not_done (by rw [h]; rfl)

theorem writeWord_ctrl_of_srst {w : Word} (h : w.getLsbD 1 = true) (s : State) :
    writeWord 0x08#25 w s = (softReset (decode s.cmd).toOption s, .okWrite) := by
  rw [writeWord_ctrl, writeCtrl_of_srst h]

/-- Settles O41: both resets bring the registers to one state. -/
theorem bothResetsGiveTheResetValues : Obligations.BothResetsGiveTheResetValues := by
  intro s
  refine ⟨fun w hw => ⟨_, writeWord_ctrl_of_srst hw s, ?soft⟩, fun rest h => ⟨_, step_eq_of_powerOn h, ?power⟩⟩
  case soft => exact registersReset_of_atReset (softReset_atReset _ s) (softReset_rewritten _ s).topWord
  case power => exact registersReset_of_atReset (powerOnReset_atReset _) (powerUp_topWord s.ram s.draws)

/-- The reset state is what the power-on reset that takes draw 0 leaves. -/
theorem reset_eq_powerOnReset : State.reset = powerOnReset { State.reset with draws := 0 } := rfl

/-- Settles O38: the invariant holds after every power-on reset. -/
theorem resetSatisfiesTheInvariant : Obligations.ResetSatisfiesTheInvariant := by
  unfold Obligations.ResetSatisfiesTheInvariant
  rw [reset_eq_powerOnReset]
  exact inv_powerOnReset _

/-! ### Sample RAM -/

/-- Settles O43. -/
theorem powerOnLeavesRamUnspecified : Obligations.PowerOnLeavesRamUnspecified := by
  intro s rest h
  exact ⟨_, step_eq_of_powerOn h, rfl, rfl, powerUp_get s.ram s.draws, Nat.lt_succ_self s.draws⟩

/-- What the command in flight leaves unspecified, in the words of the spec: its output range, cut to sample RAM
(70_reset_and_hazards.md R128). -/
theorem mem_abortedAddrs_inFlight (s : State) (a : Nat) :
    a ∈ abortedAddrs (decode s.cmd).toOption s ↔
      s.busy = true ∧ ∃ i, decode s.cmd = .ok i ∧ a < s.sramBytes ∧ OutputOffset i s a := by
  have hcommand : ∀ i, (decode s.cmd).toOption = some i ↔ decode s.cmd = .ok i := fun i => by
    cases decode s.cmd <;> simp [Except.toOption]
  simp only [mem_abortedAddrs, hcommand, mem_outputAddrs, outputOffset_iff]

/-- Settles O42: the soft reset frees exactly the offsets of `mem_abortedAddrs_inFlight`, none of them while idle or for
an illegal word. -/
theorem softResetAbortsTheCommandInFlight : Obligations.SoftResetAbortsTheCommandInFlight := by
  intro s w hw
  have hram := softReset_rewritten (decode s.cmd).toOption s
  have hmem := mem_abortedAddrs_inFlight s
  refine ⟨_, writeWord_ctrl_of_srst hw s, rfl, rfl, rfl, rfl,
    readsAs_cleared (r := .cstobs) (by decide) (softReset_atReset _ s),
    fun hidle a => hram.outside a ?idle,
    fun hbusy i hi a => ⟨fun ha => hram.inside a ?freed, fun ha => hram.outside a ?kept⟩,
    fun _ hillegal a => hram.outside a ?illegal⟩
  case idle =>
    rw [hmem, hidle]
    exact fun ⟨hbusy, _⟩ => Bool.false_ne_true hbusy
  case freed => exact (hmem a).2 ⟨hbusy, i, hi, ha⟩
  case kept =>
    rw [hmem]
    rintro ⟨-, j, hj, hfreed⟩
    cases hi.symm.trans hj
    exact ha hfreed
  case illegal =>
    rw [hmem]
    exact fun ⟨_, i, hi, _⟩ => hillegal i hi

end Sys2Proof.Machine
end

section
/-! PROOF. Runs of the machine (70_reset_and_hazards.md R129, R131, R136): an idle engine, a command's completion, and
what the engine's turn leaves to the host: the events to come, and WERR. -/

namespace Sys2Proof.Machine

/-- Settles O8. -/
theorem idleEngineDoesNothing : Obligations.IdleEngineDoesNothing := by
  intro s hidle
  refine ⟨fun rest hagenda => ?turn, fun hempty => ?used⟩
  case turn => exact (step_eq_of_engine hagenda).trans (engineTurn_of_idle hidle)
  case used => exact (step_eq_of_nil hempty).trans (engineTurn_of_idle hidle)

/-- The engine's turn changes neither what happens next nor WERR. -/
theorem engineTurn_frame {s t : State} (h : engineTurn s = .next t) : t.agenda = s.agenda ∧ t.werr = s.werr := by
  obtain ⟨-, rfl⟩ | ⟨-, rfl⟩ | ⟨-, i, -, he⟩ := engineTurn_cases h
  · exact ⟨rfl, rfl⟩
  · exact ⟨rfl, rfl⟩
  · rw [(commandsChangeOnlyTheirResults i s t he).1]
    exact ⟨rfl, rfl⟩

/-! ### Completion -/

/-- A step uses up the first event, whichever it is, and adds none. -/
theorem step_agenda {s t : State} (h : step s = .next t) : t.agenda = s.agenda.tail := by
  obtain ⟨x, -, rfl⟩ | ⟨-, he⟩ | ⟨-, rfl⟩ := step_cases h
  · exact hostAccess_agenda x (popEvent s)
  · exact (engineTurn_frame he).1
  · rfl

/-- After the engine's turn the engine is idle. -/
theorem engineTurn_idle {s t : State} (h : engineTurn s = .next t) : t.busy = false := by
  obtain ⟨hidle, rfl⟩ | ⟨-, hidle, -⟩ := engineTurn_flags h
  · exact hidle
  · exact hidle

/-- A run through all the events to come and the engine's turn after them. -/
theorem run_agenda_idle (n : Nat) : ∀ s : State, s.agenda.length = n →
    ∃ t, Host.Core.run Sys2Proof.core (n + 1) s = .next t ∧ t.busy = false ∧ t.agenda = [] := by
  induction n with
  | zero =>
    intro s hn
    have hempty := List.length_eq_zero_iff.1 hn
    obtain ⟨t, ht⟩ := exists_step_eq_next s
    refine ⟨t, run_succ_of_step 0 ht, engineTurn_idle ((step_eq_of_nil hempty).symm.trans ht), ?_⟩
    rw [step_agenda ht, hempty, List.tail_nil]
  | succ n ih =>
    intro s hn
    obtain ⟨s', hs'⟩ := exists_step_eq_next s
    obtain ⟨t, hrun, ht⟩ := ih s' (by rw [step_agenda hs', List.length_tail, hn, Nat.add_sub_cancel])
    exact ⟨t, (run_succ_of_step (n + 1) hs').trans hrun, ht⟩

/-- Settles O37. -/
theorem acceptedCommandsComplete : Obligations.AcceptedCommandsComplete :=
  fun s => run_agenda_idle s.agenda.length s rfl

/-! ### WERR -/

/-- A register write sets WERR only when it is dropped (10_state.md R21 (b)). -/
theorem regWrite_werr {r : Reg} {w : Word} {s : State} (h : (regWrite r w s).werr = true) :
    s.werr = true ∨ (s.busy = true ∧ frozenWhileBusy r = true) := by
  obtain ⟨-, he⟩ | ⟨hbusy, hfrozen, -⟩ | ⟨-, he⟩ | ⟨-, he⟩ | ⟨-, -, he⟩ | ⟨-, he⟩ := regWrite_cases r w s
  · exact .inl (he ▸ h)
  · exact .inr ⟨hbusy, hfrozen⟩
  · rw [he] at h
    cases hsrst : w.getLsbD 1 with
    | false => rw [writeCtrl_of_not_srst hsrst] at h; exact .inl h
    | true => rw [writeCtrl_of_srst hsrst, softReset_werr] at h; cases h
  · rw [he, clearStatus_werr, Bool.and_eq_true] at h
    exact .inl h.1
  · rw [he, accept_werr] at h
    exact .inl h
  · rw [he] at h
    exact .inl h

/-- A transaction sets WERR only when it is a write that R130 asks the host to keep off while busy. -/
theorem hostAccess_werr {x : BusTxn} {s : State} (h : (hostAccess x s).1.werr = true) :
    s.werr = true ∨ (s.busy = true ∧ writesFrozen x s = true) := by
  obtain he | ⟨v, -, he⟩ | ⟨v, -, -, he⟩ | ⟨w, -, he⟩ | ⟨w, r, hw, hsize, hal, hreg, hr, he⟩
    | ⟨w, hw, hbusy, hal, hlo, hhi, -⟩ | ⟨w, -, -, -, -, -, he⟩ := hostAccess_cases x s
  case inr.inr.inr.inr.inl =>
    rw [he] at h
    refine (regWrite_werr h).imp_right fun ⟨hbusy, hfrozen⟩ => ⟨hbusy, ?_⟩
    simp [writesFrozen, hw, hsize, hal, hreg, hr, hfrozen]
  case inr.inr.inr.inr.inr.inl =>
    have hram : ¬ x.offset.toNat < regionEnd := Nat.not_lt.2 (Nat.le_trans (by decide) hlo)
    exact .inr ⟨hbusy, by simp [writesFrozen, hw, hal, hram, hlo, hhi]⟩
  all_goals rw [he] at h; exact .inl h

/-- A transaction on the agenda of a compliant host is no such write while busy. -/
theorem compliant_of_bus {s : State} {x : BusTxn} (h : s.compliant = true) (hx : nextEvent s = .bus x) :
    ¬ (s.busy = true ∧ writesFrozen x s = true) := by
  rintro ⟨hbusy, hwrites⟩
  simp [State.compliant, hx, hbusy, hwrites] at h

/-- Settles O58: a transaction sets WERR by a frozen write only, the other moves never. -/
theorem compliantHostNeverSetsWerr : Obligations.CompliantHostNeverSetsWerr := by
  intro s t hcompliant h hclear
  obtain ⟨x, hx, rfl⟩ | ⟨-, he⟩ | ⟨-, rfl⟩ := step_cases h
  case inl =>
    refine Bool.eq_false_iff.2 fun hset => ?_
    obtain hbefore | hfrozen := hostAccess_werr (x := x) (s := popEvent s) hset
    · exact Bool.false_ne_true (hclear.symm.trans hbefore)
    · exact compliant_of_bus hcompliant hx hfrozen
  case inr.inl => exact (engineTurn_frame he).2.trans hclear
  case inr.inr => rfl

end Sys2Proof.Machine
end
